-- ==== Sys2Proof/Word.lean ====
section
/-! DEFINITION. The machine's one word, a byte, and its register index (spec/00_scope.md rule R6). -/

namespace Sys2Proof

/-- A byte: the width of a register, of a memory cell, of an address and of the program counter (R6). -/
abbrev Byte := BitVec 8

/-- The index of a register that exists, 0 to 7 (R10). -/
abbrev RegIdx := Fin 8

end Sys2Proof
end

