-- ==== Sys2Proof/Syntax.lean ====
section
/-! DEFINITION. The instructions: one constructor per row of spec/opcode_table.json, with the operand bytes that the
row has, each byte whole (spec/30_encoding.md rules R54, R58, R59). -/

namespace Sys2Proof

/-- An instruction (R54). A register operand is kept as the whole operand byte, since the values 8 to 255 are
encodings too: they raise `RegisterRange` when the instruction executes (R12, R59). -/
inductive Instr where
  /-- LDI: `op1` register, `op2` immediate (R90). -/
  | ldi (op1 op2 : Byte)
  /-- PRN: `op1` register (R95). -/
  | prn (op1 : Byte)
  /-- HLT (R96). -/
  | hlt
  /-- MUL: `op1` destination and first source, `op2` second source (R106). -/
  | mul (op1 op2 : Byte)
  /-- ADD: `op1` destination and first source, `op2` second source (R107). -/
  | add (op1 op2 : Byte)
  /-- PUSH: `op1` register (R116). -/
  | push (op1 : Byte)
  /-- POP: `op1` register (R117). -/
  | pop (op1 : Byte)
  /-- CALL: `op1` register that holds the target (R125). -/
  | call (op1 : Byte)
  /-- RET (R126). -/
  | ret
  deriving DecidableEq, Repr

end Sys2Proof
end

