-- ==== Sys2Proof/Decode.lean ====
section
/-! DEFINITION. The Decoder and the Dispatcher's lookup (spec/30_encoding.md rules R50 to R59, R62), the decoder of a
byte list, and after it the encoder, written from the same table. -/

namespace Sys2Proof

/-- LDI `10000010` (R54). -/
def opLdi : Byte := 0b10000010
/-- PRN `01000111` (R54). -/
def opPrn : Byte := 0b01000111
/-- HLT `00000001` (R54). -/
def opHlt : Byte := 0b00000001
/-- MUL `10100010` (R54). -/
def opMul : Byte := 0b10100010
/-- ADD `10100000` (R54). -/
def opAdd : Byte := 0b10100000
/-- PUSH `01000101` (R54). -/
def opPush : Byte := 0b01000101
/-- POP `01000110` (R54). -/
def opPop : Byte := 0b01000110
/-- CALL `01010000` (R54). -/
def opCall : Byte := 0b01010000
/-- RET `00010001` (R54). -/
def opRet : Byte := 0b00010001

/-- `operand_count = ir[7:6]` (R52). -/
def operandCount (ir : Byte) : Nat := (ir.extractLsb 7 6).toNat

/-- `sets_pc = ir[4]` (R53). -/
def setsPc (ir : Byte) : Bool := ir.getLsbD 4

/-- The Dispatcher's table: a full match of the opcode byte, covering exactly the nine opcodes (R54, R56). What it
answers builds the instruction from the two bytes after the opcode; a format that has fewer operands ignores the
others (R58, R73). -/
def lookup (ir : Byte) : Option (Byte → Byte → Instr) :=
  if ir = opLdi then some fun op1 op2 => .ldi op1 op2
  else if ir = opPrn then some fun op1 _ => .prn op1
  else if ir = opHlt then some fun _ _ => .hlt
  else if ir = opMul then some fun op1 op2 => .mul op1 op2
  else if ir = opAdd then some fun op1 op2 => .add op1 op2
  else if ir = opPush then some fun op1 _ => .push op1
  else if ir = opPop then some fun op1 _ => .pop op1
  else if ir = opCall then some fun op1 _ => .call op1
  else if ir = opRet then some fun _ _ => .ret
  else none

/-- Why a byte list does not decode. -/
inductive DecodeError where
  /-- There is no byte to be an opcode. -/
  | noBytes
  /-- The opcode has no entry in the Dispatcher's table (R56). -/
  | unknownOpcode (opcode : Byte)
  /-- The list ends before the operand bytes that the opcode declares (R50, R52). -/
  | truncated (opcode : Byte)
  deriving DecidableEq, Repr

/-- The instruction at the head of a byte list and the bytes after it. Its length is `operand_count + 1`, told from
the opcode byte alone (R50, R52). -/
def decode : List Byte → Except DecodeError (Instr × List Byte)
  | [] => .error .noBytes
  | ir :: rest =>
    match lookup ir with
    | none => .error (.unknownOpcode ir)
    | some build =>
      if rest.length < operandCount ir then .error (.truncated ir)
      else .ok (build (rest.getD 0 0) (rest.getD 1 0), rest.drop (operandCount ir))

/-- The opcode byte of an instruction (R54). -/
def Instr.opcode : Instr → Byte
  | .ldi _ _ => opLdi
  | .prn _ => opPrn
  | .hlt => opHlt
  | .mul _ _ => opMul
  | .add _ _ => opAdd
  | .push _ => opPush
  | .pop _ => opPop
  | .call _ => opCall
  | .ret => opRet

/-- The bytes of an instruction in memory order, opcode first (R38, R50, R60). -/
def encode : Instr → List Byte
  | .ldi op1 op2 => [opLdi, op1, op2]
  | .prn op1 => [opPrn, op1]
  | .hlt => [opHlt]
  | .mul op1 op2 => [opMul, op1, op2]
  | .add op1 op2 => [opAdd, op1, op2]
  | .push op1 => [opPush, op1]
  | .pop op1 => [opPop, op1]
  | .call op1 => [opCall, op1]
  | .ret => [opRet]

/-- The three bytes of a table word: byte `k` is bits `8k+7 .. 8k`, bits from `nbits` up are zero. -/
def tableBytes (nbits w : Nat) : List Byte :=
  let v := w % 2 ^ nbits
  [BitVec.ofNat 8 v, BitVec.ofNat 8 (v / 2 ^ 8), BitVec.ofNat 8 (v / 2 ^ 16)]

/-- The instruction the decoder reads from a word numbered as spec/opcode_table.json numbers it. -/
def decodeTableWord (nbits w : Nat) : Option Instr :=
  match decode (tableBytes nbits w) with
  | .ok (i, _) => some i
  | .error _ => none

end Sys2Proof
end

