-- ==== Sys2Proof/Config.lean ====
section
/-! DEFINITION. The parameters of spec/00_scope.md rule R6 that are values of the machine. Nothing is left free:
the machine is deterministic and the one open parameter, IMAGE, is the argument of `launch` (Machine/Loader.lean). -/

namespace Sys2Proof.Config

/-- `MEMSIZE`: the number of memory cells (R6, R16). -/
abbrev memSize : Nat := 256

/-- `SP_INDEX`: the register that is the stack pointer (R6, R11). -/
abbrev spIndex : RegIdx := 7

/-- `SP_RESET`: the stack pointer at construction (R6, R21). -/
abbrev spReset : Byte := 0xF4

/-- `PC_RESET` (R6, R21). DESIGN CHOICE of the spec (D6), followed here; notes/assumptions/1.md. -/
abbrev pcReset : Byte := 0x00

/-- `GPR_RESET`: registers 0 to 6 at construction (R6, R21). DESIGN CHOICE of the spec (D7), followed here, unsafe;
notes/assumptions/2.md. -/
abbrev gprReset : Byte := 0x00

/-- What a cell that neither the loader nor a store has written holds (R21, R176). DESIGN CHOICE of the spec (D8),
followed here, unsafe; notes/assumptions/3.md. -/
abbrev cellReset : Byte := 0x00

end Sys2Proof.Config
end

