-- ==== Sys2Proof/Machine/State.lean ====
section
/-! DEFINITION. The state of the machine (spec/10_state.md rules R10 to R21), the causes and the record of a fault
(spec/60_exceptions.md rules R140 to R147), and why `step` answers no next state. -/

namespace Sys2Proof.Machine

/-- Memory: the cells that do not hold `Config.cellReset`, as (address, byte) pairs with addresses strictly rising
(`Memory.wf`, Machine/Ops.lean). R16, R30. -/
abbrev Memory := List Host.Cell

/-- The five causes of a fault with what each records as `info` (R140). -/
inductive FaultCause where
  /-- Code 1; `info` is the opcode byte (R141). -/
  | unknownOpcode (opcode : Byte)
  /-- Code 2; `info` is the out-of-range value, 0x100 or -1 (R142). -/
  | addressRange (value : Int)
  /-- Code 3; `info` is the operand byte, 8 to 255 (R143). -/
  | registerRange (operand : Byte)
  /-- Code 4; no `info`; raised by ALU DIV alone, which no opcode reaches (R144, R109). -/
  | divideByZero
  /-- Code 5; no `info`; nothing raises it, since the ALU's selector is closed (R105, R145). -/
  | unsupportedAluOp
  deriving DecidableEq, Repr

/-- The fault record `(cause, pc_at_fault, info)` (R147); `info` is carried by the cause. -/
structure FaultRecord where
  cause : FaultCause
  /-- The address of the opcode of the faulting instruction. -/
  pcAtFault : Byte
  deriving DecidableEq, Repr

/-- `STATUS` (R18). -/
inductive Status where
  | running
  | halted
  | faulted
  deriving DecidableEq, Repr

/-- The complete state: exactly `x[0..7]`, `pc`, `MEM`, `RUN`, `FAULT` and `OUT` (R20). -/
structure State where
  /-- `x[0..7]`; register 7 is the stack pointer (R10, R11). -/
  regs : Vector Byte 8
  /-- The program counter (R14). -/
  pc : Byte
  /-- `MEM[0..255]` (R16). -/
  mem : Memory
  /-- `RUN`, the running flag (R17). -/
  run : Bool
  /-- `FAULT` (R18). -/
  fault : Option FaultRecord
  /-- `OUT`, oldest byte first (R19). -/
  out : List Byte
  deriving DecidableEq, Repr

/-- Why `step` answers no next state. No instruction's meaning answers one of these: a fatal condition of the spec is
a next state whose `FAULT` holds its record (R146). -/
inductive Fault where
  /-- `step` in `HALTED`: the machine has no step (R77). Safe: it is the spec's own end of a run. -/
  | halted
  /-- `step` in `FAULTED`, with the record that `FAULT` holds: the machine has no step (R77). Safe: as above. -/
  | faulted (record : FaultRecord)
  deriving DecidableEq, Repr

/-- Why the model gives an instruction no meaning. -/
inductive Refusal where
  /-- `exec`'s arm of an instruction that has no meaning yet; no arm raises it now. Safe: the model stops. -/
  | notModelled (mnemonic : String)
  deriving DecidableEq, Repr

/-- The machine right after reset, before the loader (R21, R170). -/
def State.reset : State where
  regs := #v[Config.gprReset, Config.gprReset, Config.gprReset, Config.gprReset,
    Config.gprReset, Config.gprReset, Config.gprReset, Config.spReset]
  pc := Config.pcReset
  mem := []
  run := true
  fault := none
  out := []

end Sys2Proof.Machine
end

