-- ==== Sys2Proof/Machine/Ops.lean ====
section
/-! DEFINITION. The operations over memory, registers and the program counter, raising a fault, fetching an
instruction, and concluding one (spec/20_memory.md, spec/40_execution_cycle.md, spec/60_exceptions.md). There is no
return from a fault: only reset leaves `FAULTED` (R150). -/

namespace Sys2Proof.Machine

/-! ### Memory as a list of cells -/

/-- The byte at an address; a cell that is not listed holds `Config.cellReset` (R31, R176). -/
def Memory.read : Memory → Nat → Byte
  | [], _ => Config.cellReset
  | (b, v) :: m, a => if a = b then v else Memory.read m a

/-- The memory without the cell at an address. -/
def Memory.eraseCell (m : Memory) (a : Nat) : Memory := m.filter fun c => c.1 ≠ a

/-- The memory with a cell put before the first cell at a higher address. -/
def Memory.insertCell : Memory → Nat → Byte → Memory
  | [], a, v => [(a, v)]
  | (b, w) :: m, a, v => if a < b then (a, v) :: (b, w) :: m else (b, w) :: Memory.insertCell m a v

/-- A write replaces all eight bits of one cell (R31) and keeps the canonical form. -/
def Memory.write (m : Memory) (a : Nat) (v : Byte) : Memory :=
  if v = Config.cellReset then m.eraseCell a else (m.eraseCell a).insertCell a v

/-- The addresses rise strictly. -/
def Memory.rising : Memory → Bool
  | [] => true
  | (a, _) :: m => m.all (fun c => decide (a < c.1)) && Memory.rising m

/-- The canonical form: addresses rise strictly and lie in [0, 256) (R16), and no listed cell holds what an unlisted
one reads as. -/
def Memory.wf (m : Memory) : Bool :=
  m.rising && m.all fun c => decide (c.1 < Config.memSize) && decide (c.2 ≠ Config.cellReset)

/-- Writes a list of bytes upward from an address. -/
def Memory.store : Memory → Nat → List Byte → Memory
  | m, _, [] => m
  | m, a, v :: vs => Memory.store (m.write a v) (a + 1) vs

/-! ### Accesses of the state -/

/-- `MemRead(addr, 1)` (R31, R32): no address has a side effect (R36). -/
def State.readMem (s : State) (a : Byte) : Byte := s.mem.read a.toNat

/-- `MemWrite(addr, 1, v)` (R31, R32). -/
def State.writeMem (s : State) (a v : Byte) : State := { s with mem := s.mem.write a.toNat v }

/-- `x[i]` (R10): no register is hardwired. -/
def State.reg (s : State) (i : RegIdx) : Byte := s.regs[i]

/-- `x[i] <- v` (R10, R13). -/
def State.setReg (s : State) (i : RegIdx) (v : Byte) : State := { s with regs := s.regs.set i v }

/-- The stack pointer is an alias of register 7 (R11). -/
def State.sp (s : State) : Byte := s.reg Config.spIndex

/-- A write of the stack pointer is a write of register 7 (R11). -/
def State.setSp (s : State) (v : Byte) : State := s.setReg Config.spIndex v

/-- `pc <- v` (R14). -/
def State.setPc (s : State) (v : Byte) : State := { s with pc := v }

/-- `Output(v)`: append to `OUT` (R19, R95). -/
def State.emit (s : State) (v : Byte) : State := { s with out := s.out ++ [v] }

/-! ### Faults -/

/-- Fault entry: `FAULT` takes the record and nothing else changes (R146, R147, R148). -/
def State.raise (s : State) (c : FaultCause) : State :=
  { s with fault := some { cause := c, pcAtFault := s.pc } }

/-- The end of an instruction that began in `s`: it commits everything it did, or the fault alone (R70, R148). -/
def conclude (s : State) (r : Except FaultCause State) : Host.Outcome State Fault Refusal :=
  match r with
  | .ok t => .next t
  | .error c => .next (s.raise c)

/-! ### Range checks of addresses -/

/-- An address, or a next value of `pc` or `SP`, is valid if and only if it lies in 0 to 255; otherwise the
instruction raises `AddressRange` with the value. Addresses never wrap (R34, R142). -/
def checkAddr (a : Int) : Except FaultCause Byte :=
  if 0 ≤ a ∧ a ≤ 0xFF then .ok (BitVec.ofInt 8 a) else .error (.addressRange a)

/-- The stack pointer is decremented before a push, range-checked (R115, R118). -/
def decSp (s : State) : Except FaultCause State := do
  let a ← checkAddr ((s.sp.toNat : Int) - 1)
  return s.setSp a

/-- The stack pointer is incremented after a pop, range-checked (R115, R118). -/
def incSp (s : State) : Except FaultCause State := do
  let a ← checkAddr ((s.sp.toNat : Int) + 1)
  return s.setSp a

/-! ### The execution loop around a handler -/

/-- The operand fetch: the bytes at `p + 1` and `p + 2`, whatever the opcode declares, `p + 1` checked first (R73). -/
def fetchOperands (s : State) : Except FaultCause (Byte × Byte) := do
  let a1 ← checkAddr ((s.pc.toNat : Int) + 1)
  let a2 ← checkAddr ((s.pc.toNat : Int) + 2)
  return (s.readMem a1, s.readMem a2)

/-- Steps 1 to 3 of the loop up to the handler: fetch the opcode, look it up, fetch the operands (R70 to R73, R149). -/
def fetch (s : State) : Except FaultCause Instr :=
  match lookup (s.readMem s.pc) with
  | none => .error (.unknownOpcode (s.readMem s.pc))
  | some build => (fetchOperands s).map fun ops => build ops.1 ops.2

/-- Step 4 of the loop, after the handler of `ir`: with the sets-PC bit set `pc` stays as the handler left it, else it
advances by `operand_count + 1`, range-checked (R53, R75, R80). -/
def advance (ir : Byte) (s : State) : Except FaultCause State :=
  if setsPc ir then .ok s
  else do
    let a ← checkAddr ((s.pc.toNat : Int) + operandCount ir + 1)
    return s.setPc a

end Sys2Proof.Machine
end

