-- ==== Sys2Proof/Machine/Operands.lean ====
section
/-! DEFINITION. The operand forms (spec/30_encoding.md rule R59): a register index, the whole byte, and LDI's
immediate, the whole byte as it is. Data memory is addressed through register 7 alone, with pre-decrement on a push
and post-increment on a pop (spec/44_stack.md rule R115): `pushByte` and `topOfStack`. -/

namespace Sys2Proof.Machine

/-- `CheckReg(b)`: an operand byte above 7 raises `RegisterRange`; it is neither masked nor wrapped (R12, R143). -/
def checkReg (b : Byte) : Except FaultCause RegIdx :=
  if h : b.toNat < 8 then .ok ⟨b.toNat, h⟩ else .error (.registerRange b)

/-- A register operand in an arithmetic or output position: its value (R59). -/
def regOperand (s : State) (b : Byte) : Except FaultCause Byte := do
  let r ← checkReg b
  return s.reg r

/-- The immediate operand is the byte itself: no extension, shift or scaling (R59). -/
def immOperand (b : Byte) : Byte := b

/-- The cell at the stack pointer, which a pop reads (R115). -/
def topOfStack (s : State) : Byte := s.readMem s.sp

/-- A push of a value that is computed AFTER the decrement, in the decremented state (R115, R116, R125; D23). -/
def pushByte (value : State → Byte) (s : State) : Except FaultCause State := do
  let s1 ← decSp s
  return s1.writeMem s1.sp (value s1)

end Sys2Proof.Machine
end

