-- ==== Sys2Proof/Machine/Alu.lean ====
section
/-! DEFINITION. The ALU as a unit, with its four operations, and the two instructions that reach it, MUL and ADD
(spec/43_alu.md). -/

namespace Sys2Proof.Machine

/-- The ALU's operation selector, a closed set (R100, R105). -/
inductive AluOp where
  | add
  | sub
  | mul
  | div
  deriving DecidableEq, Repr

/-- The result of an operation on two unsigned bytes: ADD, SUB and MUL exact and then modulo 256, DIV the floor of the
quotient, a zero divisor raising `DivideByZero` (R101 to R104, R108). -/
def aluResult (f : AluOp) (u v : Byte) : Except FaultCause Byte :=
  match f with
  | .add => .ok (BitVec.ofNat 8 (u.toNat + v.toNat))
  | .sub => .ok (BitVec.ofInt 8 ((u.toNat : Int) - v.toNat))
  | .mul => .ok (BitVec.ofNat 8 (u.toNat * v.toNat))
  | .div => if v.toNat = 0 then .error .divideByZero else .ok (BitVec.ofNat 8 (u.toNat / v.toNat))

/-- `ALU(f, a, b)`: both registers are read, then `x[a]` is written (R100). -/
def alu (f : AluOp) (a b : RegIdx) (s : State) : Except FaultCause State := do
  let v ← aluResult f (s.reg a) (s.reg b)
  return s.setReg a v

/-- MUL: `x[op1] <- (x[op1] * x[op2]) mod 256` (R106). -/
def execMul (op1 op2 : Byte) (s : State) : Host.Outcome State Fault Refusal :=
  conclude s do
    let a ← checkReg op1
    let b ← checkReg op2
    let t ← alu .mul a b s
    advance opMul t

/-- ADD: `x[op1] <- (x[op1] + x[op2]) mod 256` (R107). -/
def execAdd (op1 op2 : Byte) (s : State) : Host.Outcome State Fault Refusal :=
  conclude s do
    let a ← checkReg op1
    let b ← checkReg op2
    let t ← alu .add a b s
    advance opAdd t

end Sys2Proof.Machine
end

