-- ==== Sys2Proof/Machine/Load.lean ====
section
/-! DEFINITION. LDI (spec/41_ldi.md). -/

namespace Sys2Proof.Machine

/-- LDI: `x[op1] <- op2` (R90). -/
def execLdi (op1 op2 : Byte) (s : State) : Host.Outcome State Fault Refusal :=
  conclude s do
    let d ← checkReg op1
    advance opLdi (s.setReg d (immOperand op2))

end Sys2Proof.Machine
end

