-- ==== Sys2Proof/Machine/Flags.lean ====
section
/-! DEFINITION. The machine has no condition codes: no instruction computes, tests or branches on one
(spec/10_state.md section 3, rule R20). The one flag is the running flag `RUN`; with `FAULT` it gives `STATUS`
(rules R17, R18). -/

namespace Sys2Proof.Machine

/-- `RUN <- false` (R17, R96). -/
def State.clearRun (s : State) : State := { s with run := false }

/-- `STATUS`: FAULTED if `FAULT` holds a record, else RUNNING or HALTED by `RUN` (R18). -/
def State.status (s : State) : Status :=
  match s.fault with
  | some _ => .faulted
  | none => if s.run then .running else .halted

end Sys2Proof.Machine
end

