-- ==== Sys2Proof/Machine/OutputHalt.lean ====
section
/-! DEFINITION. PRN and HLT (spec/42_prn_hlt.md). -/

namespace Sys2Proof.Machine

/-- PRN: `Output(x[op1])` (R95). -/
def execPrn (op1 : Byte) (s : State) : Host.Outcome State Fault Refusal :=
  conclude s do
    let v ← regOperand s op1
    advance opPrn (s.emit v)

/-- HLT: `RUN <- false`, and the program counter still advances (R76, R96). -/
def execHlt (s : State) : Host.Outcome State Fault Refusal :=
  conclude s (advance opHlt s.clearRun)

end Sys2Proof.Machine
end

