-- ==== Sys2Proof/Machine/Stack.lean ====
section
/-! DEFINITION. PUSH and POP (spec/44_stack.md). -/

namespace Sys2Proof.Machine

/-- PUSH: the stack pointer is decremented, then `x[op1]` is read and stored, so `PUSH R7` stores the decremented
pointer (R116; D23). -/
def execPush (op1 : Byte) (s : State) : Host.Outcome State Fault Refusal :=
  conclude s do
    let r ← checkReg op1
    let t ← pushByte (fun s1 => s1.reg r) s
    advance opPush t

/-- POP: `x[op1]` takes the byte at the stack pointer, then register 7 as it now stands is incremented, so `POP R7`
leaves the popped byte plus one (R117; D23). -/
def execPop (op1 : Byte) (s : State) : Host.Outcome State Fault Refusal :=
  conclude s do
    let r ← checkReg op1
    let t ← incSp (s.setReg r (topOfStack s))
    advance opPop t

end Sys2Proof.Machine
end

