-- ==== Sys2Proof/Machine/Subroutine.lean ====
section
/-! DEFINITION. CALL and RET (spec/45_call_ret.md). -/

namespace Sys2Proof.Machine

/-- The return address of a CALL at `p`: `p + 2`, one byte. The operand fetch has already required `p <= 0xFD`, so the
sum does not wrap (R125, R73). -/
def returnAddress (s : State) : Byte := s.pc + 2

/-- CALL: the return address is pushed, then the target register is read, so `CALL R7` jumps to the decremented
pointer (R125; D23). -/
def execCall (op1 : Byte) (s : State) : Host.Outcome State Fault Refusal :=
  conclude s do
    let r ← checkReg op1
    let t ← pushByte returnAddress s
    advance opCall (t.setPc (t.reg r))

/-- RET: the byte at the stack pointer becomes `pc` and the stack pointer is incremented (R126). -/
def execRet (s : State) : Host.Outcome State Fault Refusal :=
  conclude s do
    let t ← incSp s
    advance opRet (t.setPc (topOfStack s))

end Sys2Proof.Machine
end

