-- ==== Sys2Proof/Machine/Dispatch.lean ====
section
/-! DEFINITION. The Dispatcher's handlers, one arm per instruction (spec/30_encoding.md rule R54). An arm is the
handler of step 3 and the advance of step 4 (spec/40_execution_cycle.md rules R74, R75). -/

namespace Sys2Proof.Machine

def exec (i : Instr) (s : State) : Host.Outcome State Fault Refusal :=
  match i with
  | .ldi op1 op2 => Sys2Proof.Machine.execLdi op1 op2 s
  | .prn op1 => Sys2Proof.Machine.execPrn op1 s
  | .hlt => Sys2Proof.Machine.execHlt s
  | .mul op1 op2 => Sys2Proof.Machine.execMul op1 op2 s
  | .add op1 op2 => Sys2Proof.Machine.execAdd op1 op2 s
  | .push op1 => Sys2Proof.Machine.execPush op1 s
  | .pop op1 => Sys2Proof.Machine.execPop op1 s
  | .call op1 => Sys2Proof.Machine.execCall op1 s
  | .ret => Sys2Proof.Machine.execRet s

end Sys2Proof.Machine
end

