-- ==== Sys2Proof/Machine/Step.lean ====
section
/-! DEFINITION. One step of the machine (spec/40_execution_cycle.md rules R70, R77). -/

namespace Sys2Proof.Machine

/-- One step executes one instruction or raises one fault; it is defined only in `RUNNING` (R70, R77). -/
def step (s : State) : Host.Outcome State Fault Refusal :=
  if s.status = .running then
    match fetch s with
    | .error c => .next (s.raise c)
    | .ok i => exec i s
  else
    match s.fault with
    | some r => .fault (.faulted r)
    | none => .fault .halted

/-- The state with a table word stored where `step` fetches: its three bytes at `pc`, `pc + 1` and `pc + 2`, those of
them that lie in memory. This stands for the loader, which alone places a program (R176); notes/assumptions/4.md. -/
def State.withFetchWord (s : State) (nbits w : Nat) : State :=
  { s with mem := s.mem.store s.pc.toNat ((tableBytes nbits w).take (Config.memSize - s.pc.toNat)) }

end Sys2Proof.Machine
end

