-- ==== Sys2Proof/Machine/Accesses.lean ====
section
/-! DEFINITION. The memory accesses of one step in their order, as the memory port of spec/10_state.md rule R22 shows
them (spec/20_memory.md rule R35). -/

namespace Sys2Proof.Machine

/-- One access of one byte (R31, R32). -/
inductive Access where
  | read (address : Byte)
  | write (address value : Byte)
  deriving DecidableEq, Repr

/-- The fetch reads: the opcode; then, if it is dispatchable, the two cells after it (R35, R73). -/
def fetchAccesses (s : State) : List Access :=
  .read s.pc ::
    match lookup (s.readMem s.pc) with
    | none => []
    | some _ =>
      match checkAddr ((s.pc.toNat : Int) + 1) with
      | .error _ => []
      | .ok a1 =>
        .read a1 ::
          match checkAddr ((s.pc.toNat : Int) + 2) with
          | .error _ => []
          | .ok a2 => [.read a2]

/-- The data access of a push, at the decremented stack pointer (R35). -/
def pushAccesses (value : State → Byte) (s : State) : List Access :=
  match decSp s with
  | .error _ => []
  | .ok s1 => [.write s1.sp (value s1)]

/-- The data accesses of an instruction, up to its first failing check (R35, R149). -/
def dataAccesses (i : Instr) (s : State) : List Access :=
  match i with
  | .ldi _ _ => []
  | .prn _ => []
  | .hlt => []
  | .mul _ _ => []
  | .add _ _ => []
  | .push op1 =>
    match checkReg op1 with
    | .error _ => []
    | .ok r => pushAccesses (fun s1 => s1.reg r) s
  | .pop op1 =>
    match checkReg op1 with
    | .error _ => []
    | .ok _ => [.read s.sp]
  | .call op1 =>
    match checkReg op1 with
    | .error _ => []
    | .ok _ => pushAccesses returnAddress s
  | .ret => [.read s.sp]

/-- The accesses of one step: none where there is no step (R35, R77). -/
def stepAccesses (s : State) : List Access :=
  if s.status = .running then
    fetchAccesses s ++
      match fetch s with
      | .error _ => []
      | .ok i => dataAccesses i s
  else []

end Sys2Proof.Machine
end

