-- ==== Sys2Proof/Machine/Boundary.lean ====
section
/-! DEFINITION. What the host sees of the machine and may do to it: the codes and the `info` of a fault record, the
status port, the exit code and the reset input (spec/60_exceptions.md rules R140, R147, R151; spec/10_state.md rule
R22; spec/70_reset_and_hazards.md rules R170, R173, R179). -/

namespace Sys2Proof.Machine

/-- The numeric code of a cause (R140). -/
def FaultCause.code : FaultCause → BitVec 3
  | .unknownOpcode _ => 1
  | .addressRange _ => 2
  | .registerRange _ => 3
  | .divideByZero => 4
  | .unsupportedAluOp => 5

/-- The `info` that a cause records (R140). -/
def FaultCause.info : FaultCause → Option Int
  | .unknownOpcode b => some b.toNat
  | .addressRange a => some a
  | .registerRange b => some b.toNat
  | .divideByZero => none
  | .unsupportedAluOp => none

/-- The status signals of R22. A fault signal carries a value only while `FAULT` holds a record that has one;
`fault_info` shows -1 as 0x1FF (R142). -/
structure StatusPort where
  running : Bool
  halted : Bool
  faulted : Bool
  faultCause : Option (BitVec 3)
  faultPc : Option Byte
  faultInfo : Option (BitVec 9)
  deriving DecidableEq, Repr

/-- The status port of a state (R18, R22). -/
def State.statusPort (s : State) : StatusPort where
  running := decide (s.status = .running)
  halted := decide (s.status = .halted)
  faulted := decide (s.status = .faulted)
  faultCause := s.fault.map fun r => r.cause.code
  faultPc := s.fault.map fun r => r.pcAtFault
  faultInfo := s.fault.bind fun r => r.cause.info.map (BitVec.ofInt 9)

/-- The exit code the document's shim reports after a run: 0 for HALTED, 1 for FAULTED, none while RUNNING (R179). -/
def State.exitCode (s : State) : Option Nat :=
  match s.status with
  | .running => none
  | .halted => some 0
  | .faulted => some 1

/-- The reset input: a new construction, whatever the state was; memory must be loaded again (R170, R173). -/
def State.resetInput (_ : State) : State := State.reset

end Sys2Proof.Machine
end

