-- ==== Sys2Proof/Machine/Loader.lean ====
section
/-! DEFINITION. The loader's contract with the core, and the program file it reads (spec/70_reset_and_hazards.md
rules R172, R176, R177; spec/30_encoding.md rule R61). The loader acts before the first step and has no step of its
own. -/

namespace Sys2Proof.Machine

/-- The launch state: the reset state with the image written upward from address 0 and 0x00 elsewhere (R172, R176).
An image of more than 256 bytes is refused (R177; D22). -/
def launch (image : List Byte) : Option State :=
  if image.length ≤ Config.memSize then some { State.reset with mem := Memory.store [] 0 image } else none

/-- The lines of a text. -/
def splitLines : List Char → List (List Char)
  | [] => [[]]
  | c :: cs =>
    if c = '\n' then [] :: splitLines cs
    else
      match splitLines cs with
      | [] => [[c]]
      | l :: ls => (c :: l) :: ls

/-- What stands before the first `#`, without the spaces around it (R61; notes/assumptions/9.md). -/
def lineBody (line : List Char) : List Char :=
  let before := (line.takeWhile (· ≠ '#')).dropWhile Char.isWhitespace
  (before.reverse.dropWhile Char.isWhitespace).reverse

/-- A string of binary digits read base 2, most significant first (R61). -/
def binaryValue (digits : List Char) : Nat :=
  digits.foldl (fun n c => 2 * n + if c = '1' then 1 else 0) 0

/-- What one line of a program file is. -/
inductive Line where
  /-- An 8-character binary literal: one byte of the program (R61). -/
  | byte (b : Byte)
  /-- A line that does not parse as binary: skipped, no address used (R61). -/
  | skipped
  /-- A binary literal that is not eight digits long: the spec gives it no meaning (R177; D22). -/
  | malformed
  deriving DecidableEq, Repr

/-- Reads one line (R61). -/
def parseLine (line : List Char) : Line :=
  let body := lineBody line
  if body = [] ∨ ¬ body.all (fun c => c = '0' ∨ c = '1') then .skipped
  else if body.length = 8 then .byte (BitVec.ofNat 8 (binaryValue body))
  else .malformed

/-- The bytes of a program file in order, or nothing if a line is malformed (R61, R177). -/
def parseLines : List (List Char) → Option (List Byte)
  | [] => some []
  | l :: ls =>
    match parseLine l, parseLines ls with
    | .byte b, some bs => some (b :: bs)
    | .skipped, some bs => some bs
    | _, _ => none

/-- The launch state of a program file (R176, R177). -/
def launchFile (text : List Char) : Option State :=
  (parseLines (splitLines text)).bind launch

end Sys2Proof.Machine
end

