-- ==== Sys2Proof/Safety.lean ====
section
/-! DEFINITION. What counts as a good state and a good end of a run, in the terms the claims use. -/

namespace Sys2Proof.Machine

/-- The record that `FAULT` holds is one a step can have left: it names the opcode address that `pc` still holds, and
its cause and `info` are ones a run can meet (R140 to R148). -/
def FaultRecord.plausible (s : State) (r : FaultRecord) : Prop :=
  r.pcAtFault = s.pc ∧ s.run = true ∧
    match r.cause with
    | .unknownOpcode b => b = s.readMem s.pc ∧ lookup b = none
    | .addressRange a => a = 0x100 ∨ a = -1
    | .registerRange b => 8 ≤ b.toNat
    | .divideByZero => False
    | .unsupportedAluOp => False

/-- The invariant of the machine: memory has its canonical form, and `FAULT`, if it holds a record, holds one that a
step can have left. -/
def State.Inv (s : State) : Prop :=
  s.mem.wf = true ∧ ∀ r, s.fault = some r → r.plausible s

/-- A good end of a run is `HALTED`; `FAULTED` is an end but never a good one (R79, R148, R154). -/
def State.goodEnd (s : State) : Prop := s.status = .halted

end Sys2Proof.Machine
end

