-- ==== Sys2Proof/WellFormed.lean ====
section
/-! DEFINITION. Which instructions are well formed: every register operand names a register that exists. An
instruction that is not is still an instruction of the machine: it decodes, and raises `RegisterRange` (R12, R59). -/

namespace Sys2Proof

/-- The operand byte names one of the registers 0 to 7 (R12, R59). -/
def namesRegister (b : Byte) : Bool := decide (b.toNat < 8)

/-- Every register operand of the instruction names a register (R59); an immediate is always legal. -/
def Instr.wellFormed : Instr → Bool
  | .ldi op1 _ => namesRegister op1
  | .prn op1 => namesRegister op1
  | .hlt => true
  | .mul op1 op2 => namesRegister op1 && namesRegister op2
  | .add op1 op2 => namesRegister op1 && namesRegister op2
  | .push op1 => namesRegister op1
  | .pop op1 => namesRegister op1
  | .call op1 => namesRegister op1
  | .ret => true

end Sys2Proof
end

