-- ==== Sys2Proof/Certificates/Slice0/Obligations.lean ====
section
/-! DEFINITION. The statements about the model. A statement whose rule carries the spec's own decision mark
("[decision: see 92_eei_decisions.md Dn]") or derivation mark says so and has the basis 'derived'. -/

namespace Sys2Proof.Claims

open Sys2Proof.Machine

/-- The nine legal opcode bytes, in the numeric order of rule R56's list. -/
def nineOpcodes : List Byte := [0x01, 0x11, 0x45, 0x46, 0x47, 0x50, 0x82, 0xA0, 0xA2]

/-- `s` with nothing changed but `FAULT`, which holds the cause and the address of the opcode (R147, R148). -/
def faultedFrom (s : State) (c : FaultCause) : State :=
  { s with fault := some { cause := c, pcAtFault := s.pc } }

/-- Register `n` as a number, where `n` is an operand byte. -/
def xval (s : State) (n : Byte) : Nat := (s.regs.toList.getD n.toNat 0).toNat

/-- `s` with register `n` holding a number and `pc` moved to another. -/
def setX (s : State) (n : Byte) (v p : Nat) : State :=
  { s with regs := s.regs.setIfInBounds n.toNat (BitVec.ofNat 8 v), pc := BitVec.ofNat 8 p }

/-- The table of 40_execution_cycle.md section 6 as one flat decision list: the checks in the order of R149, then the
effect, with every address and value a number. -/
def summaryStep (s : State) : State :=
  let p := s.pc.toNat
  let ir := s.readMem s.pc
  let op1 := s.readMem (s.pc + 1)
  let op2 := s.readMem (s.pc + 2)
  let sp := (s.reg 7).toNat
  let pushed (v : Nat) : State :=
    { s with regs := s.regs.setIfInBounds 7 (BitVec.ofNat 8 (sp - 1))
             mem := s.mem.write (sp - 1) (BitVec.ofNat 8 v) }
  if ir ∉ nineOpcodes then faultedFrom s (.unknownOpcode ir)
  else if 0xFF < p + 1 then faultedFrom s (.addressRange 0x100)
  else if 0xFF < p + 2 then faultedFrom s (.addressRange 0x100)
  else if ir ≠ 0x01 ∧ ir ≠ 0x11 ∧ 7 < op1.toNat then faultedFrom s (.registerRange op1)
  else if (ir = 0xA0 ∨ ir = 0xA2) ∧ 7 < op2.toNat then faultedFrom s (.registerRange op2)
  else if (ir = 0x45 ∨ ir = 0x50) ∧ sp = 0 then faultedFrom s (.addressRange (-1))
  else if ir = 0x46 ∧ (if op1 = 7 then (s.readMem (s.reg 7)).toNat else sp) = 0xFF then
    faultedFrom s (.addressRange 0x100)
  else if ir = 0x11 ∧ sp = 0xFF then faultedFrom s (.addressRange 0x100)
  else if (ir = 0x82 ∨ ir = 0xA0 ∨ ir = 0xA2) ∧ 0xFF < p + 3 then faultedFrom s (.addressRange 0x100)
  else if ir = 0x82 then setX s op1 op2.toNat (p + 3)
  else if ir = 0x47 then
    { s with out := s.out ++ [BitVec.ofNat 8 (xval s op1)], pc := BitVec.ofNat 8 (p + 2) }
  else if ir = 0x01 then { s with run := false, pc := BitVec.ofNat 8 (p + 1) }
  else if ir = 0xA2 then setX s op1 (xval s op1 * xval s op2 % 256) (p + 3)
  else if ir = 0xA0 then setX s op1 ((xval s op1 + xval s op2) % 256) (p + 3)
  else if ir = 0x45 then
    { pushed (if op1 = 7 then sp - 1 else xval s op1) with pc := BitVec.ofNat 8 (p + 2) }
  else if ir = 0x46 then
    if op1 = 7 then setX s 7 ((s.readMem (s.reg 7)).toNat + 1) (p + 2)
    else setX (setX s op1 (s.readMem (s.reg 7)).toNat p) 7 (sp + 1) (p + 2)
  else if ir = 0x50 then
    { pushed (p + 2) with pc := BitVec.ofNat 8 (if op1 = 7 then sp - 1 else xval s op1) }
  else setX s 7 (sp + 1) (s.readMem (s.reg 7)).toNat

/-- The eight digits of a byte, bit 7 first (R51, R61). -/
def digits (b : Byte) : List Char :=
  [7, 6, 5, 4, 3, 2, 1, 0].map fun k => if b.getLsbD k then '1' else '0'

/-- What may end a line of the program file: nothing, or a `#` and a comment (R61). -/
def commentTail : Option (List Char) → List Char
  | none => []
  | some comment => '#' :: comment

/-- So many spaces. -/
def spaces (n : Nat) : List Char := List.replicate n ' '

/-- The byte that a line of the program file contributes, if it contributes one (R61). -/
def lineByte (line : List Char) : Option Byte :=
  match parseLine line with
  | .byte b => some b
  | .skipped => none
  | .malformed => none

end Sys2Proof.Claims

open Sys2Proof Sys2Proof.Machine Sys2Proof.Claims

/-! ### Reset and the invariant -/

/-- R21, R170: the state after construction. `x[7]` and `RUN` are the document's; the values of registers 0 to 6, `pc`,
unwritten memory, `FAULT` and `OUT` are the spec's own decisions D7, D6, D8, D9 and D13 (log entries 1, 2 and 3). -/
def Obligations.ResetLeavesConstructionState : Prop :=
  State.reset.reg 7 = 0xF4 ∧ (∀ i : RegIdx, i ≠ 7 → State.reset.reg i = 0) ∧ State.reset.pc = 0 ∧
    (∀ a, State.reset.readMem a = 0) ∧ State.reset.run = true ∧ State.reset.fault = none ∧
    State.reset.out = [] ∧ State.reset.status = .running ∧ ∀ s : State, s.resetInput = State.reset

/-- The invariant of Safety.lean holds after reset. -/
def Obligations.ResetMeetsInvariant : Prop := State.reset.Inv

/-- Every step keeps the invariant: memory stays canonical, and a fault record names the address `pc` still holds, with
a cause and `info` that a run can meet (R140 to R148; the faults are the spec's decisions D3, D4, D9, D10). -/
def Obligations.EveryStepKeepsInvariant : Prop :=
  ∀ s t : State, s.Inv → step s = .next t → t.Inv

/-- R77, R79: a machine has a step exactly in RUNNING. That FAULTED has none is the spec's decision D20; the two named
faults that `step` answers are log entry 7. -/
def Obligations.RunningStepsOthersStop : Prop :=
  ∀ s : State, (s.status = .running → ∃ t, step s = .next t) ∧ (s.status = .halted → step s = .fault .halted) ∧
    (∀ r, s.fault = some r → s.status = .faulted ∧ step s = .fault (.faulted r))

/-- R150: no step leaves FAULTED, however many are taken, so there is no return from a fault and no second fault; reset
is the only way out. That FAULTED has no step is the spec's decision D20, and the named fault that `step` answers there
is log entry 7; what reset leaves when it is applied again (R173) is the spec's decision D21 (log entry 16). -/
def Obligations.FaultedMachineLeavesOnlyByReset : Prop :=
  ∀ (s : State) (r : FaultRecord), s.fault = some r →
    (∀ k : Nat, Host.Core.run core (k + 1) s = Host.Outcome.fault (Fault.faulted r)) ∧
      s.resetInput.fault = none ∧ s.resetInput.status = .running

/-- R20: the machine has no state beyond its registers, `pc`, memory, `RUN`, `FAULT` and `OUT`: two states that agree on
these are one state. The premise on memory is the canonical form of the invariant. -/
def Obligations.NoStateBeyondTheSixParts : Prop :=
  ∀ s t : State, s.mem.wf = true → t.mem.wf = true → (∀ i : RegIdx, s.reg i = t.reg i) → s.pc = t.pc →
    (∀ a : Byte, s.readMem a = t.readMem a) → s.run = t.run → s.fault = t.fault → s.out = t.out → s = t

/-! ### Decoding and the step -/

/-- R70 to R74: where the bytes at `pc` decode, the step is the instruction's meaning, for every instruction, well
formed or not. Step adds the operand fetch around it, which needs `pc <= 0xFD` (R73, the spec's decision D14). -/
def Obligations.StepExecutesDecodedInstruction : Prop :=
  ∀ (s : State) (i : Instr) (rest : List Byte), s.status = .running → s.pc.toNat ≤ 0xFD →
    decode [s.readMem s.pc, s.readMem (s.pc + 1), s.readMem (s.pc + 2)] = .ok (i, rest) → step s = exec i s

/-- A table word stored where the machine fetches is the instruction that the next step runs (log entry 4). -/
def Obligations.PlacedWordIsExecuted : Prop :=
  ∀ (s : State) (nbits w : Nat) (i : Instr), s.status = .running → s.pc.toNat ≤ 0xFD →
    decodeTableWord nbits w = some i → step (s.withFetchWord nbits w) = exec i (s.withFetchWord nbits w)

/-- R56, R72, R141: an opcode byte that is not one of the nine raises `UnknownOpcode` with the byte and `pc`, at every
`pc`, before any operand byte is read; nothing else changes, no further step exists, and the exit code is not zero. Of
the 256 bytes 247 are such, whatever their bits 7:6 and 4 are. The form of the record and that nothing else changes are
the spec's decisions D9 and D10 (log entry 6); that no step exists afterwards is D20 and the named fault that `step`
answers there is log entry 7; `stepAccesses` is log entry 20. -/
def Obligations.UnknownOpcodeEndsTheRun : Prop :=
  (∀ s : State, s.status = .running → s.readMem s.pc ∉ nineOpcodes →
    step s = .next (faultedFrom s (.unknownOpcode (s.readMem s.pc))) ∧ stepAccesses s = [.read s.pc] ∧
      step (faultedFrom s (.unknownOpcode (s.readMem s.pc))) =
        .fault (.faulted { cause := .unknownOpcode (s.readMem s.pc), pcAtFault := s.pc }) ∧
      (faultedFrom s (.unknownOpcode (s.readMem s.pc))).exitCode = some 1) ∧
    ((List.range 256).filter fun n => BitVec.ofNat 8 n ∉ nineOpcodes).length = 247 ∧
    (0x00 : Byte) ∉ nineOpcodes ∧ (0xFF : Byte) ∉ nineOpcodes

/-- R54, R55: the Dispatcher's table has exactly the nine opcodes, and for each the Decoder's two fields agree with the
table's columns. -/
def Obligations.DispatcherCoversExactlyNine : Prop :=
  (∀ ir : Byte, (lookup ir).isSome = true ↔ ir ∈ nineOpcodes) ∧
    nineOpcodes.map operandCount = [0, 0, 1, 1, 1, 1, 2, 2, 2] ∧
    nineOpcodes.map setsPc = [false, true, false, false, false, true, false, false, false]

/-- Words written out from the encodings of R54 decode to the instructions they stand for. -/
def Obligations.WrittenWordsDecode : Prop :=
  decodeTableWord 24 0b00001000_00000001_10000010 = some (.ldi 1 8) ∧
    decodeTableWord 16 0b00000011_01000111 = some (.prn 3) ∧
    decodeTableWord 8 0b00000001 = some .hlt ∧
    decodeTableWord 24 0b00000010_00000101_10100010 = some (.mul 5 2) ∧
    decodeTableWord 24 0b00000110_00000100_10100000 = some (.add 4 6) ∧
    decodeTableWord 16 0b00000111_01000101 = some (.push 7) ∧
    decodeTableWord 16 0b00000000_01000110 = some (.pop 0) ∧
    decodeTableWord 16 0b00000001_01010000 = some (.call 1) ∧
    decodeTableWord 8 0b00010001 = some .ret ∧
    decodeTableWord 24 0b00000001_00000000_10100001 = none ∧
    decodeTableWord 8 0b00000000 = none

/-- Decode and encode agree: every instruction, with every operand at every value, whatever bytes follow it. -/
def Obligations.DecodeOfEncode : Prop :=
  ∀ (i : Instr) (rest : List Byte), decode (encode i ++ rest) = .ok (i, rest)

/-- Each encoding has one meaning: what decodes is the encoding of what it decodes to, then the rest. -/
def Obligations.EncodeOfDecode : Prop :=
  ∀ (bytes rest : List Byte) (i : Instr), decode bytes = .ok (i, rest) → bytes = encode i ++ rest

/-- R52: `operand_count` is the field in bits 7:6; with the opcode byte it gives the instruction's length; no opcode
of the table has the value 3, and an opcode that has it faults as unknown. The form of the fault record and that nothing
else changes are the spec's decisions D9 and D10 (log entry 6). -/
def Obligations.OperandCountGivesLength : Prop :=
  (∀ ir : Byte, operandCount ir = ir.toNat / 64) ∧
    (∀ i : Instr, (encode i).length = operandCount i.opcode + 1 ∧ (encode i).head? = some i.opcode ∧
      operandCount i.opcode ≤ 2) ∧
    (∀ bytes i rest, decode bytes = .ok (i, rest) → bytes.length = rest.length + operandCount i.opcode + 1) ∧
    ∀ s : State, s.status = .running → operandCount (s.readMem s.pc) = 3 →
      step s = .next (faultedFrom s (.unknownOpcode (s.readMem s.pc)))

/-- R53: `sets_pc` is bit 4; when set, the handler's own value of `pc` stands; when clear, the loop advances `pc` by
`operand_count + 1`. The handlers' values are CALL's target, read after the push, and RET's popped byte. That CALL reads
register 7 after the push is the spec's decision D23 (log entry 10); that the sum never wraps is D5 (log entry 8). -/
def Obligations.SetsPcBitDecidesAdvance : Prop :=
  (∀ ir : Byte, setsPc ir = decide (ir.toNat / 16 % 2 = 1)) ∧
    ∀ (i : Instr) (s t : State), s.fault = none → exec i s = .next t → t.fault = none →
      (setsPc i.opcode = false → t.pc.toNat = s.pc.toNat + (operandCount i.opcode + 1)) ∧
      (setsPc i.opcode = true →
        (∃ (op1 : Byte) (h : op1.toNat < 8), i = .call op1 ∧ t.pc = t.reg ⟨op1.toNat, h⟩) ∨
          (i = .ret ∧ t.pc = s.readMem (s.reg 7)))

/-! ### What each instruction does where it completes -/

/-- R90: LDI. It completes with a register operand up to 7 and room for its advance. -/
def Obligations.LdiLoadsImmediate : Prop :=
  ∀ (s : State) (op1 op2 : Byte) (h : op1.toNat < 8), s.pc.toNat ≤ 0xFC →
    ∃ t, exec (.ldi op1 op2) s = .next t ∧ t.reg ⟨op1.toNat, h⟩ = op2 ∧
      (∀ i : RegIdx, i.val ≠ op1.toNat → t.reg i = s.reg i) ∧ t.pc.toNat = s.pc.toNat + 3 ∧
      (∀ a, t.readMem a = s.readMem a) ∧ t.run = s.run ∧ t.fault = s.fault ∧ t.out = s.out

/-- R95: PRN appends the register's value to the output stream (as a list of bytes: the spec's decision D13). -/
def Obligations.PrnEmitsRegister : Prop :=
  ∀ (s : State) (op1 : Byte) (h : op1.toNat < 8), s.pc.toNat ≤ 0xFD →
    ∃ t, exec (.prn op1) s = .next t ∧ t.out = s.out ++ [s.reg ⟨op1.toNat, h⟩] ∧
      (∀ i, t.reg i = s.reg i) ∧ t.pc.toNat = s.pc.toNat + 2 ∧
      (∀ a, t.readMem a = s.readMem a) ∧ t.run = s.run ∧ t.fault = s.fault

/-- R76, R154: HLT clears the running flag, `pc` ends one past the opcode, the loop exits, and the end is HALTED with
no fault and exit code 0; HALTED and FAULTED are distinct. The named fault of the step that does not exist is log entry
7; the bound on `pc` is the operand fetch's, the spec's decision D14 (log entry 8). -/
def Obligations.HltEndsTheRunNormally : Prop :=
  ∀ s : State, s.fault = none → s.pc.toNat ≤ 0xFD →
    ∃ t, exec .hlt s = .next t ∧ t.run = false ∧ t.pc.toNat = s.pc.toNat + 1 ∧ t.fault = none ∧
      (∀ i, t.reg i = s.reg i) ∧ (∀ a, t.readMem a = s.readMem a) ∧ t.out = s.out ∧
      t.status = .halted ∧ t.status ≠ .faulted ∧ step t = .fault .halted ∧ t.exitCode = some 0

/-- R106, R103: MUL. The modulus 256 is the spec's decision D1. -/
def Obligations.MulMultipliesModulo256 : Prop :=
  ∀ (s : State) (op1 op2 : Byte) (h1 : op1.toNat < 8) (h2 : op2.toNat < 8), s.pc.toNat ≤ 0xFC →
    ∃ t, exec (.mul op1 op2) s = .next t ∧
      (t.reg ⟨op1.toNat, h1⟩).toNat =
        (s.reg ⟨op1.toNat, h1⟩).toNat * (s.reg ⟨op2.toNat, h2⟩).toNat % 256 ∧
      (∀ i : RegIdx, i.val ≠ op1.toNat → t.reg i = s.reg i) ∧ t.pc.toNat = s.pc.toNat + 3 ∧
      (∀ a, t.readMem a = s.readMem a) ∧ t.run = s.run ∧ t.fault = s.fault ∧ t.out = s.out

/-- R107, R101: ADD. The modulus 256 is the spec's decision D1. -/
def Obligations.AddAddsModulo256 : Prop :=
  ∀ (s : State) (op1 op2 : Byte) (h1 : op1.toNat < 8) (h2 : op2.toNat < 8), s.pc.toNat ≤ 0xFC →
    ∃ t, exec (.add op1 op2) s = .next t ∧
      (t.reg ⟨op1.toNat, h1⟩).toNat =
        ((s.reg ⟨op1.toNat, h1⟩).toNat + (s.reg ⟨op2.toNat, h2⟩).toNat) % 256 ∧
      (∀ i : RegIdx, i.val ≠ op1.toNat → t.reg i = s.reg i) ∧ t.pc.toNat = s.pc.toNat + 3 ∧
      (∀ a, t.readMem a = s.readMem a) ∧ t.run = s.run ∧ t.fault = s.fault ∧ t.out = s.out

/-- R116: PUSH stores the register at the decremented stack pointer. That `PUSH R7` stores the decremented value is the
spec's decision D23. -/
def Obligations.PushStoresRegister : Prop :=
  ∀ (s : State) (op1 : Byte) (h : op1.toNat < 8), 1 ≤ (s.reg 7).toNat → s.pc.toNat ≤ 0xFD →
    ∃ t, exec (.push op1) s = .next t ∧ (t.reg 7).toNat = (s.reg 7).toNat - 1 ∧
      (∀ a, t.readMem a =
        if a = t.reg 7 then (if op1 = 7 then s.reg 7 - 1 else s.reg ⟨op1.toNat, h⟩) else s.readMem a) ∧
      (∀ i : RegIdx, i ≠ 7 → t.reg i = s.reg i) ∧ t.pc.toNat = s.pc.toNat + 2 ∧
      t.run = s.run ∧ t.fault = s.fault ∧ t.out = s.out

/-- R117: POP loads the register from the stack and increments register 7 as it then stands. That `POP R7` leaves the
popped byte plus one is the spec's decision D23. -/
def Obligations.PopLoadsRegister : Prop :=
  ∀ (s : State) (op1 : Byte) (h : op1.toNat < 8),
    (if op1 = 7 then s.readMem (s.reg 7) else s.reg 7).toNat ≤ 0xFE → s.pc.toNat ≤ 0xFD →
    ∃ t, exec (.pop op1) s = .next t ∧ (op1 ≠ 7 → t.reg ⟨op1.toNat, h⟩ = s.readMem (s.reg 7)) ∧
      (t.reg 7).toNat = (if op1 = 7 then s.readMem (s.reg 7) else s.reg 7).toNat + 1 ∧
      (∀ i : RegIdx, i ≠ 7 → i.val ≠ op1.toNat → t.reg i = s.reg i) ∧ t.pc.toNat = s.pc.toNat + 2 ∧
      (∀ a, t.readMem a = s.readMem a) ∧ t.run = s.run ∧ t.fault = s.fault ∧ t.out = s.out

/-- R125: CALL pushes `p + 2` and jumps to the register, read after the push. That `CALL R7` jumps to the decremented
stack pointer is the spec's decision D23. -/
def Obligations.CallPushesReturnAddressAndJumps : Prop :=
  ∀ (s : State) (op1 : Byte) (h : op1.toNat < 8), 1 ≤ (s.reg 7).toNat → s.pc.toNat ≤ 0xFD →
    ∃ t, exec (.call op1) s = .next t ∧ (t.reg 7).toNat = (s.reg 7).toNat - 1 ∧
      (t.readMem (t.reg 7)).toNat = s.pc.toNat + 2 ∧ (∀ a, a ≠ t.reg 7 → t.readMem a = s.readMem a) ∧
      t.pc = (if op1 = 7 then s.reg 7 - 1 else s.reg ⟨op1.toNat, h⟩) ∧
      (∀ i : RegIdx, i ≠ 7 → t.reg i = s.reg i) ∧ t.run = s.run ∧ t.fault = s.fault ∧ t.out = s.out

/-- R126: RET jumps to the byte at the stack pointer and removes it. -/
def Obligations.RetPopsProgramCounter : Prop :=
  ∀ s : State, (s.reg 7).toNat ≤ 0xFE →
    ∃ t, exec .ret s = .next t ∧ t.pc = s.readMem (s.reg 7) ∧ (t.reg 7).toNat = (s.reg 7).toNat + 1 ∧
      (∀ i : RegIdx, i ≠ 7 → t.reg i = s.reg i) ∧ (∀ a, t.readMem a = s.readMem a) ∧
      t.run = s.run ∧ t.fault = s.fault ∧ t.out = s.out

/-! ### Where an instruction faults -/

/-- R12, R143: a register operand above 7 raises `RegisterRange` with the byte and changes nothing else; `op1` is
checked before `op2` (the spec's decisions D4, D11). -/
def Obligations.RegisterOperandAbove7Faults : Prop :=
  ∀ (s : State) (b v : Byte), 8 ≤ b.toNat →
    exec (.ldi b v) s = .next (faultedFrom s (.registerRange b)) ∧
      exec (.prn b) s = .next (faultedFrom s (.registerRange b)) ∧
      exec (.mul b v) s = .next (faultedFrom s (.registerRange b)) ∧
      exec (.add b v) s = .next (faultedFrom s (.registerRange b)) ∧
      exec (.push b) s = .next (faultedFrom s (.registerRange b)) ∧
      exec (.pop b) s = .next (faultedFrom s (.registerRange b)) ∧
      exec (.call b) s = .next (faultedFrom s (.registerRange b)) ∧
      (v.toNat < 8 → exec (.mul v b) s = .next (faultedFrom s (.registerRange b)) ∧
        exec (.add v b) s = .next (faultedFrom s (.registerRange b)))

/-- R118: the implicit stack-pointer updates are range-checked and never wrap (the spec's decision D12). -/
def Obligations.StackPointerLeavingMemoryFaults : Prop :=
  ∀ (s : State) (op1 : Byte), op1.toNat < 8 →
    (s.reg 7 = 0 → exec (.push op1) s = .next (faultedFrom s (.addressRange (-1))) ∧
      exec (.call op1) s = .next (faultedFrom s (.addressRange (-1)))) ∧
    (s.reg 7 = 0xFF → exec .ret s = .next (faultedFrom s (.addressRange 0x100))) ∧
    (op1 ≠ 7 → s.reg 7 = 0xFF → exec (.pop op1) s = .next (faultedFrom s (.addressRange 0x100))) ∧
    (op1 = 7 → s.readMem (s.reg 7) = 0xFF → exec (.pop op1) s = .next (faultedFrom s (.addressRange 0x100)))

/-- R75, R184: LDI, MUL and ADD at 0xFD fault on their advance and discard the register write (the spec's decisions D5,
D10). -/
def Obligations.AdvancePastTopFaults : Prop :=
  ∀ (s : State) (op1 op2 : Byte), s.pc = 0xFD → op1.toNat < 8 →
    exec (.ldi op1 op2) s = .next (faultedFrom s (.addressRange 0x100)) ∧
      (op2.toNat < 8 → exec (.mul op1 op2) s = .next (faultedFrom s (.addressRange 0x100)) ∧
        exec (.add op1 op2) s = .next (faultedFrom s (.addressRange 0x100)))

/-- R73, R184: no instruction executes at 0xFE or 0xFF, whatever its length (the spec's decision D14). -/
def Obligations.TopOfMemoryCannotExecute : Prop :=
  ∀ s : State, s.status = .running → 0xFE ≤ s.pc.toNat → s.readMem s.pc ∈ nineOpcodes →
    step s = .next (faultedFrom s (.addressRange 0x100))

/-- R146 to R148: a step that ends in FAULTED changed nothing but `FAULT`, whose record names the opcode's address (the
spec's decisions D9, D10). -/
def Obligations.FaultsArePrecise : Prop :=
  ∀ s t : State, step s = .next t → t.fault ≠ none → ∃ c, t = faultedFrom s c ∧ s.fault = none ∧ s.run = true

/-- R105, R109: no step leaves `DivideByZero` or `UnsupportedAluOp`. -/
def Obligations.AluFaultsNeverArise : Prop :=
  ∀ s t : State, step s = .next t → ∀ r, t.fault = some r →
    r.cause ≠ .divideByZero ∧ r.cause ≠ .unsupportedAluOp

/-! ### Frames -/

/-- Frame of LDI, MUL and ADD: every register but the one `op1` names, all of memory, `RUN` and `OUT` are unchanged,
and `FAULT` too unless the instruction faults, and then nothing else changed. -/
def Obligations.RegisterInstructionsFrame : Prop :=
  ∀ (s t : State) (op1 op2 : Byte),
    (exec (.ldi op1 op2) s = .next t ∨ exec (.mul op1 op2) s = .next t ∨ exec (.add op1 op2) s = .next t) →
    (∀ i : RegIdx, i.val ≠ op1.toNat → t.reg i = s.reg i) ∧ (∀ a, t.readMem a = s.readMem a) ∧
      t.run = s.run ∧ t.out = s.out ∧ (t.fault = s.fault ∨ ∃ c, t = faultedFrom s c)

/-- Frame of PRN and HLT: registers and memory are unchanged; PRN leaves `RUN`, HLT leaves `OUT`. -/
def Obligations.OutputAndHaltFrame : Prop :=
  ∀ (s t : State) (op1 : Byte),
    (exec (.prn op1) s = .next t ∨ exec .hlt s = .next t →
      (∀ i, t.reg i = s.reg i) ∧ (∀ a, t.readMem a = s.readMem a) ∧
        (t.fault = s.fault ∨ ∃ c, t = faultedFrom s c)) ∧
    (exec (.prn op1) s = .next t → t.run = s.run) ∧ (exec .hlt s = .next t → t.out = s.out)

/-- Frame of PUSH and CALL: every register but the stack pointer, `RUN`, `OUT`, and every byte of memory but the one at
the decremented stack pointer (all of memory where the decrement faults). -/
def Obligations.StoringInstructionsFrame : Prop :=
  ∀ (s t : State) (op1 : Byte), (exec (.push op1) s = .next t ∨ exec (.call op1) s = .next t) →
    (∀ i : RegIdx, i ≠ 7 → t.reg i = s.reg i) ∧ t.run = s.run ∧ t.out = s.out ∧
      (∀ s1, decSp s = .ok s1 → ∀ a, a ≠ s1.sp → t.readMem a = s.readMem a) ∧
      (∀ c, decSp s = .error c → ∀ a, t.readMem a = s.readMem a) ∧
      (t.fault = s.fault ∨ ∃ c, t = faultedFrom s c)

/-- Frame of POP and RET: every register but the destination of POP and the stack pointer, all of memory, `RUN` and
`OUT` are unchanged. -/
def Obligations.PoppingInstructionsFrame : Prop :=
  ∀ (s t : State) (op1 : Byte),
    (exec (.pop op1) s = .next t → ∀ i : RegIdx, i ≠ 7 → i.val ≠ op1.toNat → t.reg i = s.reg i) ∧
    (exec .ret s = .next t → ∀ i : RegIdx, i ≠ 7 → t.reg i = s.reg i) ∧
    (exec (.pop op1) s = .next t ∨ exec .ret s = .next t →
      (∀ a, t.readMem a = s.readMem a) ∧ t.run = s.run ∧ t.out = s.out ∧
        (t.fault = s.fault ∨ ∃ c, t = faultedFrom s c))

/-! ### Whole-machine rules -/

/-- R17: `RUN` is true from reset until HLT executes and nothing else writes it; no instruction reads it; the loop
tests it before every step (with `RUN` false `step` answers the named fault of log entry 7). That an HLT which faults
leaves `RUN` true is the spec's decisions D14 and D10 (log entries 8 and 6). -/
def Obligations.RunningFlagDiscipline : Prop :=
  State.reset.run = true ∧
    (∀ s t : State, step s = .next t → (t.run = false ↔ s.readMem s.pc = 0x01 ∧ t.fault = none)) ∧
    (∀ (i : Instr) (s t : State) (b : Bool), exec i s = .next t →
      ∃ u, exec i { s with run := b } = .next u ∧ { u with run := true } = { t with run := true }) ∧
    ∀ s : State, s.fault = none → s.run = false → step s = .fault .halted

/-- R19, R95: `OUT` grows by one byte, the register's, in a PRN step that does not fault, and by nothing else. -/
def Obligations.OnlyPrnEmits : Prop :=
  ∀ s t : State, step s = .next t →
    t.out = if s.readMem s.pc = 0x47 ∧ t.fault = none
      then s.out ++ [s.regs.toList.getD (s.readMem (s.pc + 1)).toNat 0] else s.out

/-- R35: only PUSH and CALL change memory, and only the byte at `x[7] - 1`. -/
def Obligations.OnlyPushAndCallStore : Prop :=
  ∀ s t : State, step s = .next t → ∀ a, t.readMem a ≠ s.readMem a →
    (s.readMem s.pc = 0x45 ∨ s.readMem s.pc = 0x50) ∧ s.reg 7 ≠ 0 ∧ a = s.reg 7 - 1 ∧ t.fault = none

/-- R95: the output cannot be read back: what has been emitted before changes nothing but `OUT`. -/
def Obligations.OutputIsNeverReadBack : Prop :=
  ∀ (s t : State) (earlier : List Byte), step s = .next t →
    step { s with out := earlier ++ s.out } = .next { t with out := earlier ++ t.out }

/-- R35: the accesses of a step that does not fault are the three fetch reads in order and then the instruction's one
data access, if it has one; a step that faults writes nothing (R148, the spec's decision D10). -/
def Obligations.AccessesFollowTheOrder : Prop :=
  ∀ s t : State, step s = .next t →
    (t.fault = none →
      stepAccesses s = [.read s.pc, .read (s.pc + 1), .read (s.pc + 2)] ++
        (if s.readMem s.pc = 0x45 ∨ s.readMem s.pc = 0x50 then [.write (s.reg 7 - 1) (t.readMem (s.reg 7 - 1))]
        else if s.readMem s.pc = 0x46 ∨ s.readMem s.pc = 0x11 then [.read (s.reg 7)] else [])) ∧
    (t.fault ≠ none → ∀ a v, Access.write a v ∉ stepAccesses s)

/-- R35, R36: a step depends on no cell but those it reads: a memory that agrees with the state's on them gives the same
accesses and the same next state but for memory. -/
def Obligations.StepDependsOnlyOnCellsItReads : Prop :=
  ∀ (s t : State) (m : Memory), (∀ a, Access.read a ∈ stepAccesses s → m.read a.toNat = s.readMem a) →
    step s = .next t →
    stepAccesses { s with mem := m } = stepAccesses s ∧
      ∃ u, step { s with mem := m } = .next u ∧ { u with mem := [] } = { t with mem := [] }

/-- 40_execution_cycle.md section 6 (derived there from R70 to R76 and the handlers' rules), with the order of checks of
R149: the step of a running machine is the table's, as written out in `summaryStep`. The rows of PUSH, POP and CALL for
register 7 are the spec's decision D23 (log entry 10), the order of the checks is D11 (log entry 11). -/
def Obligations.StepIsTheSummaryTable : Prop :=
  ∀ s : State, s.status = .running → step s = .next (summaryStep s)

/-! ### The ALU as a unit -/

/-- R100 to R104, R108: the ALU's four operations write `x[a]` alone; DIV by zero raises `DivideByZero` (the spec's
decisions D1, D2). SUB and DIV are reached by no opcode. -/
def Obligations.AluUnitComputes : Prop :=
  ∀ (f : AluOp) (a b : RegIdx) (s : State),
    (f = .div → s.reg b = 0 → alu f a b s = .error .divideByZero) ∧
    ((f = .div → s.reg b ≠ 0) → ∃ t, alu f a b s = .ok t ∧
      (t.reg a).toNat =
        (match f with
          | .add => ((s.reg a).toNat + (s.reg b).toNat) % 256
          | .sub => ((s.reg a).toNat + 256 - (s.reg b).toNat) % 256
          | .mul => (s.reg a).toNat * (s.reg b).toNat % 256
          | .div => (s.reg a).toNat / (s.reg b).toNat) ∧
      (∀ i, i ≠ a → t.reg i = s.reg i) ∧ t.pc = s.pc ∧ (∀ c, t.readMem c = s.readMem c) ∧
      t.run = s.run ∧ t.fault = s.fault ∧ t.out = s.out)

/-! ### Pairs of instructions -/

/-- R127: a RET after a CALL, with the stack pointer back at the value the CALL left and the cell there unchanged, sets
`pc` to the CALL's address plus 2 and restores the stack pointer; each level of call costs one byte of stack. -/
def Obligations.CallThenRetReturns : Prop :=
  ∀ (s : State) (op1 : Byte), op1.toNat < 8 → 1 ≤ (s.reg 7).toNat → s.pc.toNat ≤ 0xFD →
    ∃ t, exec (.call op1) s = .next t ∧ (t.reg 7).toNat + 1 = (s.reg 7).toNat ∧
      ∀ u : State, u.reg 7 = t.reg 7 → u.readMem (u.reg 7) = t.readMem (t.reg 7) →
        ∃ v, exec .ret u = .next v ∧ v.fault = u.fault ∧ v.pc.toNat = s.pc.toNat + 2 ∧ v.reg 7 = s.reg 7

/-- 44_stack.md section 3: PUSH then POP of the same register, register 7 included, leaves every register as it was and
changes only the cell the PUSH wrote. -/
def Obligations.PushThenPopRestoresRegisters : Prop :=
  ∀ (s : State) (op1 : Byte), op1.toNat < 8 → 1 ≤ (s.reg 7).toNat → s.pc.toNat ≤ 0xFB →
    ∃ t u, exec (.push op1) s = .next t ∧ exec (.pop op1) t = .next u ∧ (∀ i, u.reg i = s.reg i) ∧
      u.pc.toNat = s.pc.toNat + 4 ∧ (∀ a, a ≠ s.reg 7 - 1 → u.readMem a = s.readMem a) ∧ u.fault = s.fault

/-- 41_ldi.md: LDI with operands (r, v), then PRN with operand r, outputs v. -/
def Obligations.LdiThenPrnOutputsValue : Prop :=
  ∀ (s : State) (r v : Byte), r.toNat < 8 → s.pc.toNat ≤ 0xFA →
    ∃ t u, exec (.ldi r v) s = .next t ∧ exec (.prn r) t = .next u ∧ u.out = s.out ++ [v] ∧
      u.pc.toNat = s.pc.toNat + 5

/-- 42_prn_hlt.md: HLT as the first instruction ends the run with no register or memory mutation, whatever else the
image holds. -/
def Obligations.HltFirstChangesNothingElse : Prop :=
  ∀ m : Memory, m.read 0 = 0x01 →
    step { State.reset with mem := m } = .next { State.reset with mem := m, run := false, pc := 1 }

/-! ### The host -/

/-- R172, R176: the launch state holds the image from address 0 upward and 0x00 elsewhere (the spec's decision D8) and
is the reset state otherwise; an image of more than 256 bytes is refused (D22). -/
def Obligations.LaunchPlacesImage : Prop :=
  ∀ image : List Byte,
    (image.length ≤ 256 → ∃ s, launch image = some s ∧ (∀ a : Byte, s.readMem a = image.getD a.toNat 0) ∧
      s.mem.wf = true ∧ s.status = .running ∧ { s with mem := [] } = State.reset) ∧
    (256 < image.length → launch image = none)

/-- R61, R177: a line that holds eight binary digits, alone or followed by a comment, is the byte they write; a blank
line and a comment-only line are skipped, and so is a line with any other character before the comment. That spaces
around a literal and around nothing are ignored, and that a literal of another length is malformed (the spec's decision
D22 gives it no meaning), are the model's choices (log entry 9). -/
def Obligations.ProgramFileLineIsItsByte : Prop :=
  ∀ (before after : Nat) (comment : Option (List Char)),
    (∀ b : Byte, parseLine (spaces before ++ digits b ++ spaces after ++ commentTail comment) = .byte b) ∧
    parseLine (spaces before ++ commentTail comment) = .skipped ∧
    (∀ literal : List Char, literal ≠ [] → (∀ c ∈ literal, c = '0' ∨ c = '1') → literal.length ≠ 8 →
      parseLine (spaces before ++ literal ++ spaces after ++ commentTail comment) = .malformed) ∧
    ∀ (start rest : List Char) (c : Char), '#' ∉ start → c ∉ ['0', '1', '#'] → c.isWhitespace = false →
      parseLine (start ++ c :: rest) = .skipped

/-- R18, R22, R140, R179: the three conditions as the host reads them, each signal true exactly in its condition, the
exit code none exactly in RUNNING, no fault signal without a record, and the codes of the causes, with -1 shown as
0x1FF (the spec's decisions D9, D15, D19). That a signal without a value is none is log entry 14, and that STATUS is
FAULTED wherever FAULT holds a record is log entry 21. -/
def Obligations.HostReadsStatusAndRecord : Prop :=
  ∀ s : State,
    (s.status = .running ↔ s.fault = none ∧ s.run = true) ∧ (s.status = .halted ↔ s.fault = none ∧ s.run = false) ∧
    (s.status = .faulted ↔ s.fault ≠ none) ∧
    (s.statusPort.running = true ↔ s.status = .running) ∧ (s.statusPort.halted = true ↔ s.status = .halted) ∧
    (s.statusPort.faulted = true ↔ s.status = .faulted) ∧
    (s.exitCode = none ↔ s.status = .running) ∧
    (s.exitCode = some 0 ↔ s.fault = none ∧ s.run = false) ∧ (s.exitCode = some 1 ↔ s.fault ≠ none) ∧
    (s.fault = none → s.statusPort.faultCause = none ∧ s.statusPort.faultPc = none ∧
      s.statusPort.faultInfo = none) ∧
    (∀ r, s.fault = some r → s.statusPort.faulted = true ∧ s.statusPort.running = false ∧
      s.statusPort.halted = false ∧ s.statusPort.faultPc = some r.pcAtFault ∧
      (∀ b, r.cause = .unknownOpcode b →
        s.statusPort.faultCause = some 1 ∧ s.statusPort.faultInfo = some (b.setWidth 9)) ∧
      (r.cause = .addressRange (-1) →
        s.statusPort.faultCause = some 2 ∧ s.statusPort.faultInfo = some 0x1FF) ∧
      (r.cause = .addressRange 0x100 →
        s.statusPort.faultCause = some 2 ∧ s.statusPort.faultInfo = some 0x100) ∧
      (∀ b, r.cause = .registerRange b →
        s.statusPort.faultCause = some 3 ∧ s.statusPort.faultInfo = some (b.setWidth 9)) ∧
      (r.cause = .divideByZero → s.statusPort.faultCause = some 4 ∧ s.statusPort.faultInfo = none) ∧
      (r.cause = .unsupportedAluOp → s.statusPort.faultCause = some 5 ∧ s.statusPort.faultInfo = none))

/-- R61, R176, R177: the lines of a program file give their bytes to sequential addresses from 0 upward, and a skipped
line uses no address; every cell above holds 0x00 (the spec's decision D8) and the rest is the reset state. A file of
more than 256 byte lines is refused (D22), and so is a file with a malformed literal, which is the model's choice (log
entry 9). -/
def Obligations.ProgramFileFillsMemoryInOrder : Prop :=
  ∀ lines : List (List Char), (∀ l ∈ lines, '\n' ∉ l) →
    ((∃ l ∈ lines, parseLine l = .malformed) → launchFile (['\n'].intercalate lines) = none) ∧
    ((∀ l ∈ lines, parseLine l ≠ .malformed) →
      ((lines.filterMap lineByte).length ≤ 256 → ∃ s, launchFile (['\n'].intercalate lines) = some s ∧
        (∀ a : Byte, s.readMem a = (lines.filterMap lineByte).getD a.toNat 0) ∧
        s.mem.wf = true ∧ s.status = .running ∧ { s with mem := [] } = State.reset) ∧
      (256 < (lines.filterMap lineByte).length → launchFile (['\n'].intercalate lines) = none))

/-! ### Memory -/

/-- R31: after any writes, a read returns the byte most recently written to that cell, and where none was written the
byte the cell held before, which is the image's byte in the launch state of an image of all 256 bytes. -/
def Obligations.ReadReturnsLatestWrite : Prop :=
  ∀ (s : State) (writes : List (Byte × Byte)) (a : Byte),
    (writes.foldl (fun t w => t.writeMem w.1 w.2) s).readMem a =
      (((writes.filter fun w => w.1 = a).getLast?.map Prod.snd).getD (s.readMem a)) ∧
    ∀ image : List Byte, image.length = 256 → launch image = some s → image[a.toNat]? = some (s.readMem a)
end

