-- ==== Sys2Proof/Laws/Decode.lean ====
section
/-! SUPPORT. The Dispatcher's table: what it answers for each of the nine opcodes, and that it answers for no other. -/

namespace Sys2Proof

@[simp] theorem lookup_ldi : lookup opLdi = some fun op1 op2 => .ldi op1 op2 := by simp [lookup]
@[simp] theorem lookup_prn : lookup opPrn = some fun op1 _ => .prn op1 := by
  simp [lookup, show opPrn ≠ opLdi by decide]
@[simp] theorem lookup_hlt : lookup opHlt = some fun _ _ => .hlt := by
  simp [lookup, show opHlt ≠ opLdi by decide, show opHlt ≠ opPrn by decide]
@[simp] theorem lookup_mul : lookup opMul = some fun op1 op2 => .mul op1 op2 := by
  simp [lookup, show opMul ≠ opLdi by decide, show opMul ≠ opPrn by decide, show opMul ≠ opHlt by decide]
@[simp] theorem lookup_add : lookup opAdd = some fun op1 op2 => .add op1 op2 := by
  simp [lookup, show opAdd ≠ opLdi by decide, show opAdd ≠ opPrn by decide, show opAdd ≠ opHlt by decide,
    show opAdd ≠ opMul by decide]
@[simp] theorem lookup_push : lookup opPush = some fun op1 _ => .push op1 := by
  simp [lookup, show opPush ≠ opLdi by decide, show opPush ≠ opPrn by decide, show opPush ≠ opHlt by decide,
    show opPush ≠ opMul by decide, show opPush ≠ opAdd by decide]
@[simp] theorem lookup_pop : lookup opPop = some fun op1 _ => .pop op1 := by
  simp [lookup, show opPop ≠ opLdi by decide, show opPop ≠ opPrn by decide, show opPop ≠ opHlt by decide,
    show opPop ≠ opMul by decide, show opPop ≠ opAdd by decide, show opPop ≠ opPush by decide]
@[simp] theorem lookup_call : lookup opCall = some fun op1 _ => .call op1 := by
  simp [lookup, show opCall ≠ opLdi by decide, show opCall ≠ opPrn by decide, show opCall ≠ opHlt by decide,
    show opCall ≠ opMul by decide, show opCall ≠ opAdd by decide, show opCall ≠ opPush by decide,
    show opCall ≠ opPop by decide]
@[simp] theorem lookup_ret : lookup opRet = some fun _ _ => .ret := by
  simp [lookup, show opRet ≠ opLdi by decide, show opRet ≠ opPrn by decide, show opRet ≠ opHlt by decide,
    show opRet ≠ opMul by decide, show opRet ≠ opAdd by decide, show opRet ≠ opPush by decide,
    show opRet ≠ opPop by decide, show opRet ≠ opCall by decide]

/-- The table answers for one of the nine opcodes, with that opcode's instruction, or not at all (R54, R56). -/
theorem lookup_cases {ir : Byte} {build : Byte → Byte → Instr} (h : lookup ir = some build) :
    (ir = opLdi ∧ build = fun op1 op2 => .ldi op1 op2) ∨ (ir = opPrn ∧ build = fun op1 _ => .prn op1) ∨
      (ir = opHlt ∧ build = fun _ _ => .hlt) ∨ (ir = opMul ∧ build = fun op1 op2 => .mul op1 op2) ∨
      (ir = opAdd ∧ build = fun op1 op2 => .add op1 op2) ∨ (ir = opPush ∧ build = fun op1 _ => .push op1) ∨
      (ir = opPop ∧ build = fun op1 _ => .pop op1) ∨ (ir = opCall ∧ build = fun op1 _ => .call op1) ∨
      (ir = opRet ∧ build = fun _ _ => .ret) := by
  unfold lookup at h
  repeat' split at h
  all_goals simp only [Option.some.injEq, reduceCtorEq] at h
  all_goals subst h
  all_goals simp_all

/-- The opcode of what the table builds is the byte that was looked up (R54). -/
theorem opcode_of_lookup {ir : Byte} {build : Byte → Byte → Instr} (h : lookup ir = some build) (op1 op2 : Byte) :
    (build op1 op2).opcode = ir := by
  rcases lookup_cases h with ldi | prn | hlt | mul | add | push | pop | call | ret <;>
    simp only [*] <;> rfl

end Sys2Proof
end

