-- ==== Sys2Proof/Laws/Memory.lean ====
section
/-! SUPPORT. Memory as a list of cells: read after write, and the canonical form that every operation keeps. -/

namespace Sys2Proof.Machine

@[simp] theorem Memory.read_nil (a : Nat) : Memory.read [] a = Config.cellReset := rfl

theorem Memory.read_eraseCell (m : Memory) (a b : Nat) :
    (m.eraseCell a).read b = if b = a then Config.cellReset else m.read b := by
  induction m with
  | nil => simp [Memory.eraseCell]
  | cons c m ih =>
    rcases c with ⟨k, w⟩
    by_cases hk : k = a
    · have e : Memory.eraseCell ((k, w) :: m) a = Memory.eraseCell m a := by simp [Memory.eraseCell, hk]
      rw [e, ih]
      by_cases hb : b = a
      · simp [hb]
      · rw [if_neg hb, if_neg hb, Memory.read, if_neg (by omega)]
    · have e : Memory.eraseCell ((k, w) :: m) a = (k, w) :: Memory.eraseCell m a := by simp [Memory.eraseCell, hk]
      rw [e, Memory.read, Memory.read, ih]
      by_cases hb : b = k
      · rw [if_pos hb, if_pos hb, if_neg (by omega)]
      · rw [if_neg hb, if_neg hb]

theorem Memory.read_insertCell (m : Memory) (a b : Nat) (v : Byte)
    (hm : ∀ c ∈ m, c.1 ≠ a) : (m.insertCell a v).read b = if b = a then v else m.read b := by

  induction m with
  | nil => simp [Memory.insertCell, Memory.read]
  | cons c m ih =>
    rcases c with ⟨k, w⟩
    have hk : k ≠ a := hm (k, w) (by simp)
    have ih' := ih fun c hc => hm c (by simp [hc])
    unfold Memory.insertCell
    split
    · simp [Memory.read]
    · by_cases hb : b = k
      · subst hb; simp [Memory.read, hk]
      · simp [Memory.read, hb, ih']

theorem Memory.mem_eraseCell_ne (m : Memory) (a : Nat) : ∀ c ∈ m.eraseCell a, c.1 ≠ a := by
  intro c hc
  simpa [Memory.eraseCell] using (List.mem_filter.mp hc).2

/-- A read after a write: the value written at that address, every other cell as before (R31). -/
@[simp] theorem Memory.read_write (m : Memory) (a b : Nat) (v : Byte) :
    (m.write a v).read b = if b = a then v else m.read b := by
  unfold Memory.write
  split
  · rename_i h; rw [Memory.read_eraseCell, h]
  · rw [Memory.read_insertCell _ _ _ _ (m.mem_eraseCell_ne a), Memory.read_eraseCell]
    split <;> rfl

theorem Memory.rising_cons (c : Host.Cell) (m : Memory) :
    Memory.rising (c :: m) = true ↔ (∀ d ∈ m, c.1 < d.1) ∧ m.rising = true := by
  rcases c with ⟨k, w⟩
  simp [Memory.rising]

theorem Memory.wf_iff (m : Memory) :
    m.wf = true ↔ m.rising = true ∧ ∀ c ∈ m, c.1 < Config.memSize ∧ c.2 ≠ Config.cellReset := by
  simp [Memory.wf]

theorem Memory.wf_nil : Memory.wf [] = true := rfl

theorem Memory.rising_eraseCell (m : Memory) (a : Nat) (h : m.rising = true) : (m.eraseCell a).rising = true := by
  induction m with
  | nil => rfl
  | cons c m ih =>
    rw [Memory.rising_cons] at h
    have ih' := ih h.2
    unfold Memory.eraseCell at ih' ⊢
    rw [List.filter_cons]
    split
    · exact (Memory.rising_cons _ _).mpr ⟨fun d hd => h.1 d (List.mem_of_mem_filter hd), ih'⟩
    · exact ih'

theorem Memory.mem_insertCell (m : Memory) (a : Nat) (v : Byte) (c : Host.Cell) :
    c ∈ m.insertCell a v ↔ c = (a, v) ∨ c ∈ m := by
  induction m with
  | nil => simp [Memory.insertCell]
  | cons d m ih =>
    rcases d with ⟨k, w⟩
    unfold Memory.insertCell
    split
    · simp
    · simp only [List.mem_cons, ih]; tauto

theorem Memory.rising_insertCell (m : Memory) (a : Nat) (v : Byte) (h : m.rising = true) (hm : ∀ c ∈ m, c.1 ≠ a) :
    (m.insertCell a v).rising = true := by
  induction m with
  | nil => rfl
  | cons d m ih =>
    rcases d with ⟨k, w⟩
    have h' := (Memory.rising_cons _ _).mp h
    unfold Memory.insertCell
    split
    · rename_i hlt
      refine (Memory.rising_cons _ _).mpr ⟨fun e he => ?_, h⟩
      rcases List.mem_cons.mp he with rfl | he
      · exact hlt
      · exact lt_trans hlt (h'.1 e he)
    · rename_i hlt
      refine (Memory.rising_cons _ _).mpr ⟨fun e he => ?_, ih h'.2 fun c hc => hm c (by simp [hc])⟩
      rcases (Memory.mem_insertCell _ _ _ _).mp he with rfl | he
      · have := hm (k, w) (by simp)
        simp only at hlt this ⊢
        omega
      · exact h'.1 e he

/-- A write inside memory keeps the canonical form. -/
theorem Memory.wf_write (m : Memory) (a : Nat) (v : Byte) (h : m.wf = true) (ha : a < Config.memSize) :
    (m.write a v).wf = true := by
  rw [Memory.wf_iff] at h ⊢
  have hr := Memory.rising_eraseCell m a h.1
  have hs : ∀ c ∈ m.eraseCell a, c ∈ m := fun c hc => List.mem_of_mem_filter hc
  unfold Memory.write
  split
  · exact ⟨hr, fun c hc => h.2 c (hs c hc)⟩
  · rename_i hv
    refine ⟨Memory.rising_insertCell _ _ _ hr (m.mem_eraseCell_ne a), fun c hc => ?_⟩
    rcases (Memory.mem_insertCell _ _ _ _).mp hc with rfl | hc
    · exact ⟨ha, hv⟩
    · exact h.2 c (hs c hc)

/-- Storing a list of bytes that ends inside memory keeps the canonical form. -/
theorem Memory.wf_store (vs : List Byte) (m : Memory) (a : Nat) (h : m.wf = true)
    (ha : a + vs.length ≤ Config.memSize) : (m.store a vs).wf = true := by
  induction vs generalizing m a with
  | nil => exact h
  | cons v vs ih =>
    simp only [List.length_cons] at ha
    exact ih _ _ (Memory.wf_write m a v h (by omega)) (by omega)

/-- What each cell holds after a list of bytes is stored upward from an address. -/
theorem Memory.read_store (vs : List Byte) (m : Memory) (a b : Nat) :
    (m.store a vs).read b = if a ≤ b ∧ b < a + vs.length then vs.getD (b - a) 0 else m.read b := by
  induction vs generalizing m a with
  | nil => simp [Memory.store]
  | cons v vs ih =>
    rw [Memory.store, ih, Memory.read_write]
    simp only [List.length_cons]
    by_cases hb : b = a
    · subst hb; simp
    · by_cases h1 : a + 1 ≤ b ∧ b < a + 1 + vs.length
      · have : b - a = (b - (a + 1)) + 1 := by omega
        rw [if_pos h1, if_pos (by omega), this, List.getD_cons_succ]
      · rw [if_neg h1, if_neg hb, if_neg (by omega)]

/-- A cell of a canonical memory is read as it is listed. -/
theorem Memory.read_of_mem (m : Memory) (h : m.rising = true) (c : Host.Cell) (hc : c ∈ m) : m.read c.1 = c.2 := by
  induction m with
  | nil => simp at hc
  | cons d m ih =>
    have h' := (Memory.rising_cons _ _).mp h
    rcases d with ⟨k, w⟩
    rcases List.mem_cons.mp hc with rfl | hc
    · simp [Memory.read]
    · have := h'.1 c hc
      simp only at this
      rw [Memory.read, if_neg (by omega), ih h'.2 hc]

theorem Memory.read_of_lt (m : Memory) (a : Nat) (h : ∀ c ∈ m, a < c.1) : m.read a = Config.cellReset := by
  induction m with
  | nil => rfl
  | cons d m ih =>
    rcases d with ⟨k, w⟩
    have := h (k, w) (by simp)
    simp only at this
    rw [Memory.read, if_neg (by omega), ih fun c hc => h c (by simp [hc])]

/-- Two canonical memories that read alike everywhere are the same list. -/
theorem Memory.ext_of_read (m n : Memory) (hm : m.wf = true) (hn : n.wf = true) (h : ∀ a, m.read a = n.read a) :
    m = n := by
  rw [Memory.wf_iff] at hm hn
  induction m generalizing n with
  | nil =>
    cases n with
    | nil => rfl
    | cons d n =>
      have := Memory.read_of_mem _ hn.1 d (by simp)
      rw [← h d.1] at this
      exact absurd this.symm (hn.2 d (by simp)).2
  | cons c m ih =>
    cases n with
    | nil =>
      have := Memory.read_of_mem _ hm.1 c (by simp)
      rw [h c.1] at this
      exact absurd this.symm (hm.2 c (by simp)).2
    | cons d n =>
      have hmc := (Memory.rising_cons _ _).mp hm.1
      have hnd := (Memory.rising_cons _ _).mp hn.1
      have hc := Memory.read_of_mem _ hm.1 c (by simp)
      have hd := Memory.read_of_mem _ hn.1 d (by simp)
      have hk : c.1 = d.1 := by
        by_contra hne
        rcases Nat.lt_or_gt_of_ne hne with hlt | hgt
        · have := Memory.read_of_lt (d :: n) c.1 (by
            intro e he
            rcases List.mem_cons.mp he with rfl | he
            · exact hlt
            · exact lt_trans hlt (hnd.1 e he))
          exact (hm.2 c (by simp)).2 (by rw [← hc, h, this])
        · have := Memory.read_of_lt (c :: m) d.1 (by
            intro e he
            rcases List.mem_cons.mp he with rfl | he
            · exact hgt
            · exact lt_trans hgt (hmc.1 e he))
          exact (hn.2 d (by simp)).2 (by rw [← hd, ← h, this])
      have hv : c.2 = d.2 := by rw [← hc, ← hd, h, hk]
      have hcd : c = d := Prod.ext hk hv
      subst hcd
      congr 1
      refine ih n ⟨hmc.2, fun e he => hm.2 e (by simp [he])⟩ ⟨hnd.2, fun e he => hn.2 e (by simp [he])⟩ fun a => ?_
      by_cases ha : a = c.1
      · subst ha
        rw [Memory.read_of_lt m _ hmc.1, Memory.read_of_lt n _ hnd.1]
      · have := h a
        rcases c with ⟨k, w⟩
        simpa [Memory.read, ha] using this

end Sys2Proof.Machine
end

