-- ==== Sys2Proof/Laws/State.lean ====
section
/-! SUPPORT. One lemma per field per update of the state, so that no later proof unfolds a record update. The stack
pointer is rewritten to register 7. -/

namespace Sys2Proof.Machine

variable (s : State) (i j : RegIdx) (a b v w : Byte) (c : FaultCause)

@[simp] theorem State.sp_eq : s.sp = s.reg 7 := rfl
@[simp] theorem State.setSp_eq : s.setSp v = s.setReg 7 v := rfl

@[simp] theorem State.setReg_reg : (s.setReg i v).reg j = if j = i then v else s.reg j := by
  simp only [State.reg, State.setReg, Fin.getElem_fin, Vector.getElem_set, Fin.ext_iff, eq_comm]
@[simp] theorem State.setReg_pc : (s.setReg i v).pc = s.pc := rfl
@[simp] theorem State.setReg_mem : (s.setReg i v).mem = s.mem := rfl
@[simp] theorem State.setReg_run : (s.setReg i v).run = s.run := rfl
@[simp] theorem State.setReg_fault : (s.setReg i v).fault = s.fault := rfl
@[simp] theorem State.setReg_out : (s.setReg i v).out = s.out := rfl
@[simp] theorem State.setReg_readMem : (s.setReg i v).readMem a = s.readMem a := rfl

@[simp] theorem State.setPc_reg : (s.setPc v).reg j = s.reg j := rfl
@[simp] theorem State.setPc_regs : (s.setPc v).regs = s.regs := rfl
@[simp] theorem State.setPc_pc : (s.setPc v).pc = v := rfl
@[simp] theorem State.setPc_mem : (s.setPc v).mem = s.mem := rfl
@[simp] theorem State.setPc_run : (s.setPc v).run = s.run := rfl
@[simp] theorem State.setPc_fault : (s.setPc v).fault = s.fault := rfl
@[simp] theorem State.setPc_out : (s.setPc v).out = s.out := rfl
@[simp] theorem State.setPc_readMem : (s.setPc v).readMem a = s.readMem a := rfl

@[simp] theorem State.writeMem_reg : (s.writeMem a v).reg j = s.reg j := rfl
@[simp] theorem State.writeMem_regs : (s.writeMem a v).regs = s.regs := rfl
@[simp] theorem State.writeMem_pc : (s.writeMem a v).pc = s.pc := rfl
@[simp] theorem State.writeMem_mem : (s.writeMem a v).mem = s.mem.write a.toNat v := rfl
@[simp] theorem State.writeMem_run : (s.writeMem a v).run = s.run := rfl
@[simp] theorem State.writeMem_fault : (s.writeMem a v).fault = s.fault := rfl
@[simp] theorem State.writeMem_out : (s.writeMem a v).out = s.out := rfl
@[simp] theorem State.writeMem_readMem : (s.writeMem a v).readMem b = if b = a then v else s.readMem b := by
  simp only [State.readMem, State.writeMem, Memory.read_write, BitVec.toNat_inj]

@[simp] theorem State.emit_reg : (s.emit v).reg j = s.reg j := rfl
@[simp] theorem State.emit_regs : (s.emit v).regs = s.regs := rfl
@[simp] theorem State.emit_pc : (s.emit v).pc = s.pc := rfl
@[simp] theorem State.emit_mem : (s.emit v).mem = s.mem := rfl
@[simp] theorem State.emit_run : (s.emit v).run = s.run := rfl
@[simp] theorem State.emit_fault : (s.emit v).fault = s.fault := rfl
@[simp] theorem State.emit_out : (s.emit v).out = s.out ++ [v] := rfl
@[simp] theorem State.emit_readMem : (s.emit v).readMem a = s.readMem a := rfl

@[simp] theorem State.clearRun_reg : s.clearRun.reg j = s.reg j := rfl
@[simp] theorem State.clearRun_regs : s.clearRun.regs = s.regs := rfl
@[simp] theorem State.clearRun_pc : s.clearRun.pc = s.pc := rfl
@[simp] theorem State.clearRun_mem : s.clearRun.mem = s.mem := rfl
@[simp] theorem State.clearRun_run : s.clearRun.run = false := rfl
@[simp] theorem State.clearRun_fault : s.clearRun.fault = s.fault := rfl
@[simp] theorem State.clearRun_out : s.clearRun.out = s.out := rfl
@[simp] theorem State.clearRun_readMem : s.clearRun.readMem a = s.readMem a := rfl

@[simp] theorem State.raise_reg : (s.raise c).reg j = s.reg j := rfl
@[simp] theorem State.raise_regs : (s.raise c).regs = s.regs := rfl
@[simp] theorem State.raise_pc : (s.raise c).pc = s.pc := rfl
@[simp] theorem State.raise_mem : (s.raise c).mem = s.mem := rfl
@[simp] theorem State.raise_run : (s.raise c).run = s.run := rfl
@[simp] theorem State.raise_fault :
    (s.raise c).fault = some { cause := c, pcAtFault := s.pc } := rfl
@[simp] theorem State.raise_out : (s.raise c).out = s.out := rfl
@[simp] theorem State.raise_readMem : (s.raise c).readMem a = s.readMem a := rfl

/-- A state is its six fields (R20), the registers taken one by one. -/
theorem State.ext_fields (s t : State) (hr : ∀ i, s.reg i = t.reg i) (hp : s.pc = t.pc) (hm : s.mem = t.mem)
    (hn : s.run = t.run) (hf : s.fault = t.fault) (ho : s.out = t.out) : s = t := by
  rcases s with ⟨r, p, m, n, f, o⟩
  rcases t with ⟨r', p', m', n', f', o'⟩
  simp only at hp hm hn hf ho
  have : r = r' := Vector.ext fun k hk => hr ⟨k, hk⟩
  subst this hp hm hn hf ho
  rfl

/-- `STATUS` is RUNNING exactly where `RUN` is true and `FAULT` is none (R18). -/
theorem State.status_running_iff : s.status = .running ↔ s.fault = none ∧ s.run = true := by
  unfold State.status
  cases s.fault <;> simp

theorem State.status_halted_iff : s.status = .halted ↔ s.fault = none ∧ s.run = false := by
  unfold State.status
  cases s.fault <;> simp

theorem State.status_faulted_iff : s.status = .faulted ↔ s.fault ≠ none := by
  unfold State.status
  cases s.fault with
  | none => cases s.run <;> simp
  | some r => simp

end Sys2Proof.Machine
end

