-- ==== Sys2Proof/Laws/Ops.lean ====
section
/-! SUPPORT. One lemma per shared operation that says all it can do; later proofs cite it instead of unfolding the
operation. -/

namespace Sys2Proof.Machine

/-! ### The operand check -/

theorem checkReg_ok (b : Byte) (h : b.toNat < 8) : checkReg b = .ok ⟨b.toNat, h⟩ := by
  simp [checkReg, h]

theorem checkReg_error (b : Byte) (h : 8 ≤ b.toNat) : checkReg b = .error (.registerRange b) := by
  simp [checkReg, show ¬ b.toNat < 8 by omega]

/-- `CheckReg` names the register of a byte below 8, and raises for every other byte (R12). -/
theorem checkReg_cases (b : Byte) :
    (∃ h : b.toNat < 8, checkReg b = .ok ⟨b.toNat, h⟩) ∨
      (8 ≤ b.toNat ∧ checkReg b = .error (.registerRange b)) := by
  by_cases h : b.toNat < 8
  · exact .inl ⟨h, checkReg_ok b h⟩
  · exact .inr ⟨by omega, checkReg_error b (by omega)⟩

/-! ### The range check -/

theorem checkAddr_ok (n : Nat) (h : n ≤ 0xFF) : checkAddr (n : Int) = .ok (BitVec.ofNat 8 n) := by
  have h1 : (0 : Int) ≤ (n : Int) ∧ (n : Int) ≤ 0xFF := ⟨by omega, by omega⟩
  rw [checkAddr, if_pos h1, BitVec.ofInt_natCast]

theorem checkAddr_above (n : Nat) (h : 0xFF < n) : checkAddr (n : Int) = .error (.addressRange n) := by
  have h1 : ¬ ((0 : Int) ≤ (n : Int) ∧ (n : Int) ≤ 0xFF) := by omega
  rw [checkAddr, if_neg h1]

theorem checkAddr_below (a : Int) (h : a < 0) : checkAddr a = .error (.addressRange a) := by
  rw [checkAddr, if_neg (by omega)]

theorem addr_add (p : Byte) (k : Nat) :
    BitVec.ofNat 8 (p.toNat + k) = p + BitVec.ofNat 8 k := by
  apply BitVec.eq_of_toNat_eq
  simp [BitVec.toNat_add]

/-- The next address upward: the sum where it lies in memory, else `AddressRange` with the sum (R34). -/
theorem checkAddr_add (p : Byte) (k : Nat) :
    checkAddr ((p.toNat : Int) + k) =
      if p.toNat + k ≤ 0xFF then .ok (p + BitVec.ofNat 8 k) else .error (.addressRange ((p.toNat : Int) + k)) := by
  have e : ((p.toNat : Int) + (k : Int)) = ((p.toNat + k : Nat) : Int) := by omega
  rw [e]
  split
  · rename_i h; rw [checkAddr_ok _ h, addr_add p k]
  · rename_i h; rw [checkAddr_above _ (by omega)]

/-! ### The stack pointer -/

/-- The decrement before a push: one lower, or `AddressRange(-1)` at 0 (R118). -/
theorem decSp_eq (s : State) :
    decSp s = if s.reg 7 = 0 then .error (.addressRange (-1)) else .ok (s.setReg 7 (s.reg 7 - 1)) := by
  unfold decSp
  simp only [State.sp_eq, State.setSp_eq]
  split
  · rename_i h; rw [h, checkAddr_below _ (by decide)]; rfl
  · rename_i h
    have h0 : (s.reg 7).toNat ≠ 0 := fun e => h (BitVec.eq_of_toNat_eq (by simpa using e))
    have hlt := (s.reg 7).isLt
    have e : ((s.reg 7).toNat : Int) - 1 = (((s.reg 7).toNat - 1 : Nat) : Int) := by omega
    have v : BitVec.ofNat 8 ((s.reg 7).toNat - 1) = s.reg 7 - 1 := by
      apply BitVec.eq_of_toNat_eq
      have e1 : (1 : Byte).toNat = 1 := rfl
      simp only [BitVec.toNat_ofNat, BitVec.toNat_sub, e1]
      omega
    rw [e, checkAddr_ok _ (by omega), v]
    rfl

/-- The increment after a pop: one higher, or `AddressRange(0x100)` at 0xFF (R118). -/
theorem incSp_eq (s : State) :
    incSp s = if s.reg 7 = 0xFF then .error (.addressRange 0x100) else .ok (s.setReg 7 (s.reg 7 + 1)) := by
  unfold incSp
  simp only [State.sp_eq, State.setSp_eq]
  have := checkAddr_add (s.reg 7) 1
  simp only [Nat.cast_one] at this
  rw [this]
  have hlt := (s.reg 7).isLt
  by_cases h : s.reg 7 = 0xFF
  · rw [if_pos h, h]; rfl
  · have h1 : (s.reg 7).toNat ≠ 255 := fun e => h (BitVec.eq_of_toNat_eq (by simpa using e))
    rw [if_neg h, if_pos (by omega)]
    rfl

/-- A push: the decremented stack pointer, and the value computed after the decrement stored there (R115, R118). -/
theorem pushByte_eq (value : State → Byte) (s : State) :
    pushByte value s =
      if s.reg 7 = 0 then .error (.addressRange (-1))
      else .ok ((s.setReg 7 (s.reg 7 - 1)).writeMem (s.reg 7 - 1) (value (s.setReg 7 (s.reg 7 - 1)))) := by
  unfold pushByte
  rw [decSp_eq]
  split
  · rfl
  · show Except.ok _ = Except.ok _
    simp

/-! ### The advance -/

/-- The loop's advance: nothing for an opcode that sets `pc`; else the instruction's length on, or `AddressRange`
(R75). -/
theorem advance_eq (ir : Byte) (s : State) :
    advance ir s =
      if setsPc ir then .ok s
      else if s.pc.toNat + (operandCount ir + 1) ≤ 0xFF then
        .ok (s.setPc (s.pc + BitVec.ofNat 8 (operandCount ir + 1)))
      else .error (.addressRange ((s.pc.toNat : Int) + (operandCount ir + 1 : Nat))) := by
  unfold advance
  split
  · rfl
  · have e : (s.pc.toNat : Int) + operandCount ir + 1 = (s.pc.toNat : Int) + ((operandCount ir + 1 : Nat) : Int) := by
      push_cast; omega
    rw [e, checkAddr_add]
    split <;> rfl

/-! ### Concluding an instruction -/

/-- What an instruction answers: its effects, or the fault alone (R148). -/
theorem conclude_next_iff (s t : State) (r : Except FaultCause State) :
    conclude s r = .next t ↔ r = .ok t ∨ ∃ c, r = .error c ∧ t = s.raise c := by
  cases r with
  | ok u => simp [conclude]
  | error c => simp [conclude, eq_comm]

/-- An instruction always answers a next state. -/
theorem conclude_next (s : State) (r : Except FaultCause State) : ∃ t, conclude s r = .next t := by
  cases r with
  | ok t => exact ⟨t, rfl⟩
  | error c => exact ⟨s.raise c, rfl⟩

/-- Every instruction is some computation that is then concluded. -/
theorem exec_concludes (i : Instr) (s : State) : ∃ r, exec i s = conclude s r := by
  cases i with
  | ldi op1 op2 => exact ⟨_, rfl⟩
  | prn op1 => exact ⟨_, rfl⟩
  | hlt => exact ⟨advance opHlt s.clearRun, rfl⟩
  | mul op1 op2 => exact ⟨_, rfl⟩
  | add op1 op2 => exact ⟨_, rfl⟩
  | push op1 => exact ⟨_, rfl⟩
  | pop op1 => exact ⟨_, rfl⟩
  | call op1 => exact ⟨_, rfl⟩
  | ret => exact ⟨do let t ← incSp s; advance opRet (t.setPc (topOfStack s)), rfl⟩

/-! ### Fetching -/

theorem fetchOperands_below_top (s : State) (h : s.pc.toNat ≤ 0xFD) :
    fetchOperands s = .ok (s.readMem (s.pc + 1), s.readMem (s.pc + 2)) := by
  have h1 := checkAddr_add s.pc 1
  have h2 := checkAddr_add s.pc 2
  rw [if_pos (by omega)] at h1 h2
  simp only [Nat.cast_one, Nat.cast_ofNat] at h1 h2
  unfold fetchOperands
  rw [h1, h2]
  rfl

theorem fetchOperands_at_top (s : State) (h : 0xFE ≤ s.pc.toNat) :
    fetchOperands s = .error (.addressRange 0x100) := by
  have h1 := checkAddr_add s.pc 1
  have h2 := checkAddr_add s.pc 2
  have hlt := s.pc.isLt
  simp only [Nat.cast_one, Nat.cast_ofNat] at h1 h2
  unfold fetchOperands
  by_cases e : s.pc.toNat = 0xFF
  · rw [if_neg (by omega), e] at h1
    rw [e, h1]
    rfl
  · have e' : s.pc.toNat = 0xFE := by omega
    rw [if_pos (by omega)] at h1
    rw [if_neg (by omega), e'] at h2
    rw [h1, e', h2]
    rfl

/-- The bytes at `pc` where both operand bytes lie in memory: the table's answer, or the unknown opcode (R72, R73). -/
theorem fetch_below_top (s : State) (h : s.pc.toNat ≤ 0xFD) :
    fetch s =
      match lookup (s.readMem s.pc) with
      | none => .error (.unknownOpcode (s.readMem s.pc))
      | some build => .ok (build (s.readMem (s.pc + 1)) (s.readMem (s.pc + 2))) := by
  unfold fetch
  rw [fetchOperands_below_top s h]
  cases lookup (s.readMem s.pc) <;> rfl

/-- At 0xFE and 0xFF every opcode of the table raises `AddressRange(0x100)` (R73). -/
theorem fetch_at_top (s : State) (h : 0xFE ≤ s.pc.toNat) :
    fetch s =
      match lookup (s.readMem s.pc) with
      | none => .error (.unknownOpcode (s.readMem s.pc))
      | some _ => .error (.addressRange 0x100) := by
  unfold fetch
  rw [fetchOperands_at_top s h]
  cases lookup (s.readMem s.pc) <;> rfl

/-- A step is the fetched instruction's meaning or the fetch's fault, in `RUNNING` alone (R70, R77). -/
theorem step_next_iff (s t : State) :
    step s = .next t ↔
      s.status = .running ∧
        ((∃ c, fetch s = .error c ∧ t = s.raise c) ∨ ∃ i, fetch s = .ok i ∧ exec i s = .next t) := by
  unfold step
  split
  · rename_i h
    cases fetch s with
    | error c => simp [h, eq_comm]
    | ok i => simp [h]
  · rename_i h
    cases s.fault <;> simp [h]

end Sys2Proof.Machine
end

