-- ==== Sys2Proof/Laws/Exec.lean ====
section
/-! SUPPORT. One lemma per meaning that says all it can do: its checks in their order and its effect, over the state's
updates. Later proofs rewrite with these instead of unfolding a meaning. -/

namespace Sys2Proof.Machine

/-! ### The Decoder's fields of the nine opcodes (R55) -/

@[simp] theorem setsPc_ldi : setsPc opLdi = false := by decide
@[simp] theorem setsPc_prn : setsPc opPrn = false := by decide
@[simp] theorem setsPc_hlt : setsPc opHlt = false := by decide
@[simp] theorem setsPc_mul : setsPc opMul = false := by decide
@[simp] theorem setsPc_add : setsPc opAdd = false := by decide
@[simp] theorem setsPc_push : setsPc opPush = false := by decide
@[simp] theorem setsPc_pop : setsPc opPop = false := by decide
@[simp] theorem setsPc_call : setsPc opCall = true := by decide
@[simp] theorem setsPc_ret : setsPc opRet = true := by decide
@[simp] theorem operandCount_ldi : operandCount opLdi = 2 := by decide
@[simp] theorem operandCount_prn : operandCount opPrn = 1 := by decide
@[simp] theorem operandCount_hlt : operandCount opHlt = 0 := by decide
@[simp] theorem operandCount_mul : operandCount opMul = 2 := by decide
@[simp] theorem operandCount_add : operandCount opAdd = 2 := by decide
@[simp] theorem operandCount_push : operandCount opPush = 1 := by decide
@[simp] theorem operandCount_pop : operandCount opPop = 1 := by decide
@[simp] theorem operandCount_call : operandCount opCall = 1 := by decide
@[simp] theorem operandCount_ret : operandCount opRet = 0 := by decide

/-- The advance by `k` bytes: `pc` moved on, or `AddressRange`. -/
def advanced (k : Nat) (s : State) : Except FaultCause State :=
  if s.pc.toNat + k ≤ 0xFF then .ok (s.setPc (s.pc + BitVec.ofNat 8 k))
  else .error (.addressRange ((s.pc.toNat : Int) + (k : Nat)))

theorem advance_length {ir : Byte} {k : Nat} (s : State) (h : setsPc ir = false) (hk : operandCount ir + 1 = k) :
    advance ir s = advanced k s := by
  rw [advance_eq, h, hk]
  rfl

theorem advanced_ok (k : Nat) (s : State) (h : s.pc.toNat + k ≤ 0xFF) :
    advanced k s = .ok (s.setPc (s.pc + BitVec.ofNat 8 k)) := if_pos h

theorem advance_call (s : State) : advance opCall s = .ok s := by rw [advance_eq, setsPc_call]; rfl
theorem advance_ret (s : State) : advance opRet s = .ok s := by rw [advance_eq, setsPc_ret]; rfl

/-! ### Sequencing of checks -/

theorem ok_bind {α β : Type} (a : α) (f : α → Except FaultCause β) : (Except.ok a >>= f) = f a := rfl
theorem error_bind {α β : Type} (c : FaultCause) (f : α → Except FaultCause β) :
    (Except.error c >>= f) = Except.error c := rfl
theorem pure_ok {α : Type} (a : α) : (pure a : Except FaultCause α) = .ok a := rfl

/-! ### The meanings -/

/-- LDI (R90). -/
theorem exec_ldi (op1 op2 : Byte) (s : State) :
    exec (.ldi op1 op2) s = conclude s
      (if h : op1.toNat < 8 then advanced 3 (s.setReg ⟨op1.toNat, h⟩ op2) else .error (.registerRange op1)) := by
  simp only [exec, execLdi, immOperand, advance_length (k := 3) _ setsPc_ldi rfl]
  rcases checkReg_cases op1 with ⟨h, e⟩ | ⟨h, e⟩
  · rw [e, ok_bind, dif_pos h]
  · rw [e, error_bind, dif_neg (by omega)]

/-- PRN (R95). -/
theorem exec_prn (op1 : Byte) (s : State) :
    exec (.prn op1) s = conclude s
      (if h : op1.toNat < 8 then advanced 2 (s.emit (s.reg ⟨op1.toNat, h⟩)) else .error (.registerRange op1)) := by
  simp only [exec, execPrn, regOperand, advance_length (k := 2) _ setsPc_prn rfl]
  rcases checkReg_cases op1 with ⟨h, e⟩ | ⟨h, e⟩
  · rw [e, dif_pos h]; simp only [ok_bind, pure_ok]
  · rw [e, dif_neg (by omega)]; simp only [error_bind]

/-- HLT (R96). -/
theorem exec_hlt (s : State) : exec .hlt s = conclude s (advanced 1 s.clearRun) := by
  simp only [exec, execHlt, advance_length (k := 1) _ setsPc_hlt rfl]

/-- The checks and the write that MUL and ADD share, with the value to write (R106, R107). -/
def aluForm (value : Byte → Byte → Byte) (op1 op2 : Byte) (s : State) : Except FaultCause State :=
  if h1 : op1.toNat < 8 then
    if h2 : op2.toNat < 8 then
      advanced 3 (s.setReg ⟨op1.toNat, h1⟩ (value (s.reg ⟨op1.toNat, h1⟩) (s.reg ⟨op2.toNat, h2⟩)))
    else .error (.registerRange op2)
  else .error (.registerRange op1)

/-- MUL (R106). -/
theorem exec_mul (op1 op2 : Byte) (s : State) :
    exec (.mul op1 op2) s =
      conclude s (aluForm (fun u v => BitVec.ofNat 8 (u.toNat * v.toNat)) op1 op2 s) := by
  simp only [exec, execMul, alu, aluResult, aluForm, advance_length (k := 3) _ setsPc_mul rfl]
  rcases checkReg_cases op1 with ⟨h, e⟩ | ⟨h, e⟩
  · rcases checkReg_cases op2 with ⟨h2, e2⟩ | ⟨h2, e2⟩
    · simp only [e, e2, dif_pos h, dif_pos h2, ok_bind, pure_ok]
    · simp only [e, e2, dif_pos h, dif_neg (Nat.not_lt.mpr h2), ok_bind, error_bind]
  · simp only [e, dif_neg (Nat.not_lt.mpr h), error_bind]

/-- ADD (R107). -/
theorem exec_add (op1 op2 : Byte) (s : State) :
    exec (.add op1 op2) s =
      conclude s (aluForm (fun u v => BitVec.ofNat 8 (u.toNat + v.toNat)) op1 op2 s) := by
  simp only [exec, execAdd, alu, aluResult, aluForm, advance_length (k := 3) _ setsPc_add rfl]
  rcases checkReg_cases op1 with ⟨h, e⟩ | ⟨h, e⟩
  · rcases checkReg_cases op2 with ⟨h2, e2⟩ | ⟨h2, e2⟩
    · simp only [e, e2, dif_pos h, dif_pos h2, ok_bind, pure_ok]
    · simp only [e, e2, dif_pos h, dif_neg (Nat.not_lt.mpr h2), ok_bind, error_bind]
  · simp only [e, dif_neg (Nat.not_lt.mpr h), error_bind]

/-- The state after a push of a value computed after the decrement (R115). -/
def pushed (value : State → Byte) (s : State) : State :=
  (s.setReg 7 (s.reg 7 - 1)).writeMem (s.reg 7 - 1) (value (s.setReg 7 (s.reg 7 - 1)))

theorem pushByte_pushed (value : State → Byte) (s : State) :
    pushByte value s = if s.reg 7 = 0 then .error (.addressRange (-1)) else .ok (pushed value s) :=
  pushByte_eq value s

/-- PUSH (R116). -/
theorem exec_push (op1 : Byte) (s : State) :
    exec (.push op1) s = conclude s
      (if h : op1.toNat < 8 then
        if s.reg 7 = 0 then .error (.addressRange (-1))
        else advanced 2 (pushed (fun t => t.reg ⟨op1.toNat, h⟩) s)
      else .error (.registerRange op1)) := by
  simp only [exec, execPush, pushByte_pushed, advance_length (k := 2) _ setsPc_push rfl]
  rcases checkReg_cases op1 with ⟨h, e⟩ | ⟨h, e⟩
  · rw [e, ok_bind, dif_pos h]
    split <;> simp only [ok_bind, error_bind]
  · rw [e, error_bind, dif_neg (by omega)]

/-- POP (R117). -/
theorem exec_pop (op1 : Byte) (s : State) :
    exec (.pop op1) s = conclude s
      (if h : op1.toNat < 8 then
        let t := s.setReg ⟨op1.toNat, h⟩ (s.readMem (s.reg 7))
        if t.reg 7 = 0xFF then .error (.addressRange 0x100) else advanced 2 (t.setReg 7 (t.reg 7 + 1))
      else .error (.registerRange op1)) := by
  simp only [exec, execPop, incSp_eq, topOfStack, State.sp_eq, advance_length (k := 2) _ setsPc_pop rfl]
  rcases checkReg_cases op1 with ⟨h, e⟩ | ⟨h, e⟩
  · rw [e, ok_bind, dif_pos h]
    split <;> simp only [ok_bind, error_bind]
  · rw [e, error_bind, dif_neg (by omega)]

/-- CALL (R125). -/
theorem exec_call (op1 : Byte) (s : State) :
    exec (.call op1) s = conclude s
      (if h : op1.toNat < 8 then
        if s.reg 7 = 0 then .error (.addressRange (-1))
        else .ok ((pushed returnAddress s).setPc ((pushed returnAddress s).reg ⟨op1.toNat, h⟩))
      else .error (.registerRange op1)) := by
  simp only [exec, execCall, advance_call, pushByte_pushed]
  rcases checkReg_cases op1 with ⟨h, e⟩ | ⟨h, e⟩
  · rw [e, ok_bind, dif_pos h]
    split <;> simp only [ok_bind, error_bind]
  · rw [e, error_bind, dif_neg (by omega)]

/-- RET (R126). -/
theorem exec_ret (s : State) :
    exec .ret s = conclude s
      (if s.reg 7 = 0xFF then .error (.addressRange 0x100)
      else .ok ((s.setReg 7 (s.reg 7 + 1)).setPc (s.readMem (s.reg 7)))) := by
  simp only [exec, execRet, advance_ret, incSp_eq, topOfStack, State.sp_eq]
  split <;> simp only [ok_bind, error_bind]

/-- A push leaves every register but the stack pointer. -/
@[simp] theorem pushed_reg (value : State → Byte) (s : State) (j : RegIdx) :
    (pushed value s).reg j = if j = 7 then s.reg 7 - 1 else s.reg j := by
  simp [pushed]
@[simp] theorem pushed_pc (value : State → Byte) (s : State) : (pushed value s).pc = s.pc := rfl
@[simp] theorem pushed_run (value : State → Byte) (s : State) : (pushed value s).run = s.run := rfl
@[simp] theorem pushed_fault (value : State → Byte) (s : State) : (pushed value s).fault = s.fault := rfl
@[simp] theorem pushed_out (value : State → Byte) (s : State) : (pushed value s).out = s.out := rfl
@[simp] theorem pushed_mem (value : State → Byte) (s : State) :
    (pushed value s).mem = s.mem.write (s.reg 7 - 1).toNat (value (s.setReg 7 (s.reg 7 - 1))) := rfl
/-- A push changes the one cell at the decremented stack pointer (R115). -/
@[simp] theorem pushed_readMem (value : State → Byte) (s : State) (a : Byte) :
    (pushed value s).readMem a =
      if a = s.reg 7 - 1 then value (s.setReg 7 (s.reg 7 - 1)) else s.readMem a := by
  simp [pushed]

end Sys2Proof.Machine
end

