-- ==== Sys2Proof/Laws/PerInstr.lean ====
section
/-! SUPPORT. Facts about every instruction as syntax, one lemma per constructor. -/

namespace Sys2Proof.Laws.EncodingShape

/-- The encoding begins with the instruction's opcode byte, and the Dispatcher's table builds the instruction back
from that byte and the two after it (R50, R54). -/
def Statement (i : Instr) : Prop :=
  (encode i).head? = some i.opcode ∧
    (lookup i.opcode).map (fun build => build ((encode i).getD 1 0) ((encode i).getD 2 0)) = some i

theorem ldi (op1 op2 : Byte) : Statement (.ldi op1 op2) := ⟨rfl, rfl⟩
theorem prn (op1 : Byte) : Statement (.prn op1) := ⟨rfl, rfl⟩
theorem hlt : Statement .hlt := ⟨rfl, rfl⟩
theorem mul (op1 op2 : Byte) : Statement (.mul op1 op2) := ⟨rfl, rfl⟩
theorem add (op1 op2 : Byte) : Statement (.add op1 op2) := ⟨rfl, rfl⟩
theorem push (op1 : Byte) : Statement (.push op1) := ⟨rfl, rfl⟩
theorem pop (op1 : Byte) : Statement (.pop op1) := ⟨rfl, rfl⟩
theorem call (op1 : Byte) : Statement (.call op1) := ⟨rfl, rfl⟩
theorem ret : Statement .ret := ⟨rfl, rfl⟩

end Sys2Proof.Laws.EncodingShape
end

