-- ==== Sys2Proof/Tests/Slice0.lean ====
section
/-! SUPPORT. The model's own tests: the encodings written out from spec/30_encoding.md, single steps from the vectors
of spec/95_test_vectors.md, and for each statement with hypotheses a state that meets them. -/

namespace Sys2Proof.Tests

open Sys2Proof.Machine Sys2Proof.Claims

/-! ### Helpers -/

/-- The start state of 95_test_vectors.md section 2 at an address, with the bytes there. -/
def startAt (p : Byte) (bytes : List Byte) : State :=
  { regs := #v[0x08, 0x09, 0xFF, 0x00, 0x80, 0x10, 0x01, 0xF4]
    pc := p
    mem := (Memory.write [] 0xF4 0x3C).store p.toNat bytes
    run := true
    fault := none
    out := [] }

/-- The start state of 95_test_vectors.md section 2, at 0x10. -/
def start (bytes : List Byte) : State := startAt 0x10 bytes

/-- The next state, if there is one, has a property. -/
def holdsAfter (o : Host.Outcome State Fault Refusal) (p : State → Bool) : Bool :=
  match o with
  | .next t => p t
  | _ => false

theorem next_of_holdsAfter {o : Host.Outcome State Fault Refusal} {p : State → Bool} (h : holdsAfter o p = true) :
    ∃ t, o = .next t ∧ p t = true := by
  cases o with
  | next t => exact ⟨t, rfl, h⟩
  | fault r => cases h
  | refused r => cases h

/-- The next state is the start state with this fault alone. -/
def faultsWith (s : State) (c : FaultCause) : Bool :=
  holdsAfter (step s) fun t => decide (t = faultedFrom s c)

/-! ### Decoding: words written out from R54 and R60, one for every instruction -/

theorem test_decode_ldi : decode [0b10000010, 0b00000001, 0b00001001] = .ok (.ldi 1 9, []) := by decide
theorem test_decode_prn : decode [0b01000111, 0b00000011, 0xAA] = .ok (.prn 3, [0xAA]) := by decide
theorem test_decode_hlt : decode [0b00000001] = .ok (.hlt, []) := by decide
theorem test_decode_mul : decode [0b10100010, 0b00000101, 0b00000010] = .ok (.mul 5 2, []) := by decide
theorem test_decode_add : decode [0b10100000, 0b00000100, 0b00000110] = .ok (.add 4 6, []) := by decide
theorem test_decode_push : decode [0b01000101, 0b00000111] = .ok (.push 7, []) := by decide
theorem test_decode_pop : decode [0b01000110, 0b00000000] = .ok (.pop 0, []) := by decide
theorem test_decode_call : decode [0b01010000, 0b00000001] = .ok (.call 1, []) := by decide
theorem test_decode_ret : decode [0b00010001, 0x00] = .ok (.ret, [0x00]) := by decide
/-- Zero is no no-operation, and there is no SUB at 0xA1 (R56). -/
theorem test_decode_unknown :
    decode [0x00, 0, 0] = .error (.unknownOpcode 0x00) ∧ decode [0xA1, 0, 1] = .error (.unknownOpcode 0xA1) := by
  decide
theorem test_decode_truncated : decode [0x82, 0x00] = .error (.truncated 0x82) ∧ decode [] = .error .noBytes := by
  decide

/-! ### Well-formedness: an ill-formed term for each check -/

theorem test_illformed_ldi : (Instr.ldi 8 0).wellFormed = false ∧ (Instr.ldi 7 0xFF).wellFormed = true := by decide
theorem test_illformed_prn : (Instr.prn 0xFF).wellFormed = false ∧ (Instr.prn 7).wellFormed = true := by decide
theorem test_illformed_mul :
    (Instr.mul 8 0).wellFormed = false ∧ (Instr.mul 0 8).wellFormed = false ∧ (Instr.mul 7 7).wellFormed = true := by
  decide
theorem test_illformed_add :
    (Instr.add 8 0).wellFormed = false ∧ (Instr.add 0 8).wellFormed = false ∧ (Instr.add 7 7).wellFormed = true := by
  decide
theorem test_illformed_push : (Instr.push 8).wellFormed = false ∧ (Instr.push 7).wellFormed = true := by decide
theorem test_illformed_pop : (Instr.pop 8).wellFormed = false ∧ (Instr.pop 7).wellFormed = true := by decide
theorem test_illformed_call : (Instr.call 8).wellFormed = false ∧ (Instr.call 7).wellFormed = true := by decide
theorem test_wellformed_nullary : Instr.hlt.wellFormed = true ∧ Instr.ret.wellFormed = true := by decide

/-! ### Single steps: 95_test_vectors.md sections 2.1 to 2.6 -/

theorem test_ldi_stack_pointer :
    holdsAfter (step (start [0x82, 0x07, 0x20])) (fun t => t.reg 7 = 0x20 && t.pc = 0x13 && t.reg 6 = 0x01) = true := by
  decide
theorem test_ldi_advance_fault : faultsWith (startAt 0xFD [0x82, 0x00, 0x08]) (.addressRange 0x100) = true := by decide
theorem test_prn_last_address :
    holdsAfter (step (startAt 0xFD [0x47, 0x00])) (fun t => t.out = [0x08] && t.pc = 0xFF) = true := by decide
theorem test_prn_top_fault : faultsWith (startAt 0xFE [0x47, 0x00]) (.addressRange 0x100) = true := by decide
theorem test_hlt :
    holdsAfter (step (start [0x01])) (fun t => t.run = false && t.pc = 0x11 && t.status = .halted) = true := by decide
theorem test_hlt_top_fault : faultsWith (startAt 0xFF [0x01]) (.addressRange 0x100) = true := by decide
theorem test_mul_overflow :
    holdsAfter (step (start [0xA2, 0x04, 0x01])) (fun t => t.reg 4 = 0x80 && t.reg 1 = 0x09 && t.pc = 0x13) = true := by
  decide
theorem test_mul_square : holdsAfter (step (start [0xA2, 0x02, 0x02])) (fun t => t.reg 2 = 0x01) = true := by decide
theorem test_add_wraps :
    holdsAfter (step (start [0xA0, 0x02, 0x06])) (fun t => t.reg 2 = 0x00 && t.reg 6 = 0x01 && t.fault = none) = true := by
  decide
theorem test_add_checks_op1_first : faultsWith (start [0xA0, 0x08, 0x09]) (.registerRange 0x08) = true := by decide
theorem test_push_register_7 :
    holdsAfter (step (start [0x45, 0x07])) (fun t => t.reg 7 = 0xF3 && t.readMem 0xF3 = 0xF3 && t.pc = 0x12) = true := by
  decide
theorem test_push_at_zero_faults : faultsWith ((start [0x45, 0x00]).setReg 7 0) (.addressRange (-1)) = true := by decide
theorem test_pop_register_7 : holdsAfter (step (start [0x46, 0x07])) (fun t => t.reg 7 = 0x3D) = true := by decide
theorem test_pop_at_top_faults : faultsWith ((start [0x46, 0x01]).setReg 7 0xFF) (.addressRange 0x100) = true := by decide
theorem test_call_register_7 :
    holdsAfter (step (start [0x50, 0x07])) (fun t => t.reg 7 = 0xF3 && t.readMem 0xF3 = 0x12 && t.pc = 0xF3) = true := by
  decide
theorem test_call_last_address :
    holdsAfter (step (startAt 0xFD [0x50, 0x00])) (fun t => t.readMem 0xF3 = 0xFF && t.pc = 0x08) = true := by decide
theorem test_ret : holdsAfter (step (start [0x11])) (fun t => t.pc = 0x3C && t.reg 7 = 0xF5) = true := by decide
theorem test_ret_at_top_faults : faultsWith ((start [0x11]).setReg 7 0xFF) (.addressRange 0x100) = true := by decide
/-- The register check precedes the advance check (95 section 2.1). -/
theorem test_priority_register_before_advance :
    faultsWith (startAt 0xFD [0x82, 0x09, 0x00]) (.registerRange 0x09) = true := by decide
/-- The lookup precedes the operand fetch (95 section 2.6). -/
theorem test_priority_lookup_before_operands :
    faultsWith (startAt 0xFF [0xFF]) (.unknownOpcode 0xFF) = true := by decide

/-! ### The ALU unit, the loader and the host: 95_test_vectors.md sections 2.3, 2.7 and P5c -/

theorem test_alu_sub : (alu .sub 0 1 (start [])).map (fun t => t.reg 0) = .ok 0xFF := by decide
theorem test_alu_div :
    (alu .div 2 5 (start [])).map (fun t => t.reg 2) = .ok 0x0F ∧
      (alu .div 3 3 (start [])).map (fun t => t.reg 3) = .error .divideByZero := by decide
theorem test_program_file :
    (parseLines [['#', ' ', 'p'], ['1', '0', '0', '0', '0', '0', '1', '0', ' ', '#', 'L'], [],
      ['0', '0', '0', '0', '0', '0', '0', '0'], ['0', '0', '0', '0', '1', '0', '0', '0']]) = some [0x82, 0x00, 0x08] := by
  decide
/-- The comment may follow the literal directly (R61). -/
theorem test_program_line_comment_directly :
    parseLine ['1', '0', '0', '0', '0', '0', '1', '0', '#', 'L', 'D', 'I'] = .byte 0x82 := by decide
theorem test_program_file_malformed_literal : parseLines [['1', '0', '1']] = none := by decide
theorem test_launch_too_long : launch (List.replicate 257 0x01) = none :=
  if_neg (by rw [List.length_replicate]; decide)
theorem test_status_port_of_minus_one :
    ((faultedFrom (start []) (.addressRange (-1))).statusPort).faultInfo = some 0x1FF := by decide
theorem test_with_fetch_word_at_reset :
    holdsAfter (step (State.reset.withFetchWord 24 0x080082)) (fun t => t.reg 0 = 0x08 && t.pc = 0x03) = true := by decide

/-! ### Witnesses: states and operands that meet the hypotheses of each statement -/

theorem exec_next (i : Instr) (s : State) : ∃ t, exec i s = .next t := by
  obtain ⟨r, hr⟩ := exec_concludes i s
  rw [hr]
  exact conclude_next s r

theorem witness_EveryStepKeepsInvariant : ∃ s t : State, s.Inv ∧ step s = .next t := by
  obtain ⟨t, ht, _⟩ := next_of_holdsAfter test_push_register_7
  exact ⟨start [0x45, 0x07], t, ⟨by decide, fun r h => by cases h⟩, ht⟩

theorem witness_RunningStepsOthersStop :
    (∃ s : State, s.status = .running) ∧ (∃ s : State, s.status = .halted) ∧ ∃ (s : State) (r : FaultRecord), s.fault = some r :=
  ⟨⟨start [0x01], by decide⟩, ⟨(start [0x01]).clearRun, by decide⟩, ⟨faultedFrom (start [0x00]) (.unknownOpcode 0), _, rfl⟩⟩

theorem witness_FaultedMachineLeavesOnlyByReset : ∃ (s : State) (r : FaultRecord), s.fault = some r :=
  ⟨faultedFrom (start [0x00]) (.unknownOpcode 0), _, rfl⟩

/-- Two runs of writes to the same cells in another order meet every premise. -/
theorem witness_NoStateBeyondTheSixParts : ∃ s t : State, s.mem.wf = true ∧ t.mem.wf = true ∧
    (∀ i : RegIdx, s.reg i = t.reg i) ∧ s.pc = t.pc ∧ (∀ a : Byte, s.readMem a = t.readMem a) ∧ s.run = t.run ∧
    s.fault = t.fault ∧ s.out = t.out :=
  ⟨((start []).writeMem 1 5).writeMem 2 6, ((start []).writeMem 2 6).writeMem 1 5, by decide, by decide, fun _ => rfl,
    rfl, by decide, rfl, rfl, rfl⟩

theorem witness_StepExecutesDecodedInstruction : ∃ (s : State) (i : Instr) (rest : List Byte), s.status = .running ∧
    s.pc.toNat ≤ 0xFD ∧ decode [s.readMem s.pc, s.readMem (s.pc + 1), s.readMem (s.pc + 2)] = .ok (i, rest) :=
  ⟨startAt 0xFD [0x50, 0x00], .call 0, [0], by decide, by decide, by decide⟩

theorem witness_PlacedWordIsExecuted : ∃ (s : State) (nbits w : Nat) (i : Instr), s.status = .running ∧
    s.pc.toNat ≤ 0xFD ∧ decodeTableWord nbits w = some i :=
  ⟨startAt 0xFD [], 24, 0x080082, .ldi 0 8, by decide, by decide, by decide⟩

theorem witness_UnknownOpcodeEndsTheRun : ∃ s : State, s.status = .running ∧ s.readMem s.pc ∉ nineOpcodes :=
  ⟨startAt 0xFF [0xFF], by decide, by decide⟩

theorem witness_EncodeOfDecode : ∃ (bytes rest : List Byte) (i : Instr), decode bytes = .ok (i, rest) :=
  ⟨[0x82, 0x08, 0xFF, 0x01], [0x01], .ldi 8 0xFF, by decide⟩

theorem witness_OperandCountGivesLength :
    (∃ (bytes : List Byte) (i : Instr) (rest : List Byte), decode bytes = .ok (i, rest)) ∧
      ∃ s : State, s.status = .running ∧ operandCount (s.readMem s.pc) = 3 :=
  ⟨⟨[0x47, 0x03], .prn 3, [], by decide⟩, ⟨start [0xC5], by decide, by decide⟩⟩

theorem witness_SetsPcBitDecidesAdvance :
    (∃ s t : State, s.fault = none ∧ exec (.ldi 7 0x20) s = .next t ∧ t.fault = none ∧ setsPc (Instr.ldi 7 0x20).opcode = false) ∧
    (∃ s t : State, s.fault = none ∧ exec (.call 7) s = .next t ∧ t.fault = none ∧ setsPc (Instr.call 7).opcode = true) ∧
    ∃ s t : State, s.fault = none ∧ exec .ret s = .next t ∧ t.fault = none ∧ setsPc Instr.ret.opcode = true := by
  refine ⟨?_, ?_, ?_⟩
  · obtain ⟨t, h, hp⟩ := next_of_holdsAfter
      (show holdsAfter (exec (.ldi 7 0x20) (startAt 0xFC [])) (fun t => t.fault = none) = true by decide)
    exact ⟨_, t, rfl, h, by simpa using hp, by decide⟩
  · obtain ⟨t, h, hp⟩ := next_of_holdsAfter
      (show holdsAfter (exec (.call 7) (startAt 0xFD [])) (fun t => t.fault = none) = true by decide)
    exact ⟨_, t, rfl, h, by simpa using hp, by decide⟩
  · obtain ⟨t, h, hp⟩ := next_of_holdsAfter
      (show holdsAfter (exec .ret (startAt 0xFD [])) (fun t => t.fault = none) = true by decide)
    exact ⟨_, t, rfl, h, by simpa using hp, by decide⟩

theorem witness_LdiLoadsImmediate : ∃ (s : State) (op1 : Byte), op1.toNat < 8 ∧ s.pc.toNat ≤ 0xFC :=
  ⟨startAt 0xFC [], 7, by decide, by decide⟩

theorem witness_PrnEmitsRegister : ∃ (s : State) (op1 : Byte), op1.toNat < 8 ∧ s.pc.toNat ≤ 0xFD :=
  ⟨startAt 0xFD [], 7, by decide, by decide⟩

theorem witness_HltEndsTheRunNormally : ∃ s : State, s.fault = none ∧ s.pc.toNat ≤ 0xFD :=
  ⟨startAt 0xFD [], rfl, by decide⟩

theorem witness_MulMultipliesModulo256 :
    ∃ (s : State) (op1 op2 : Byte), op1.toNat < 8 ∧ op2.toNat < 8 ∧ s.pc.toNat ≤ 0xFC :=
  ⟨startAt 0xFC [], 2, 2, by decide, by decide, by decide⟩

theorem witness_AddAddsModulo256 :
    ∃ (s : State) (op1 op2 : Byte), op1.toNat < 8 ∧ op2.toNat < 8 ∧ s.pc.toNat ≤ 0xFC :=
  ⟨startAt 0xFC [], 7, 0, by decide, by decide, by decide⟩

theorem witness_PushStoresRegister :
    (∃ (s : State) (op1 : Byte), op1 = 7 ∧ op1.toNat < 8 ∧ 1 ≤ (s.reg 7).toNat ∧ s.pc.toNat ≤ 0xFD) ∧
      ∃ (s : State) (op1 : Byte), op1 ≠ 7 ∧ op1.toNat < 8 ∧ 1 ≤ (s.reg 7).toNat ∧ s.pc.toNat ≤ 0xFD :=
  ⟨⟨(startAt 0xFD []).setReg 7 1, 7, rfl, by decide, by decide, by decide⟩,
    ⟨startAt 0xFD [], 0, by decide, by decide, by decide, by decide⟩⟩

theorem witness_PopLoadsRegister :
    (∃ (s : State) (op1 : Byte), op1 = 7 ∧ op1.toNat < 8 ∧
      (if op1 = 7 then s.readMem (s.reg 7) else s.reg 7).toNat ≤ 0xFE ∧ s.pc.toNat ≤ 0xFD) ∧
    ∃ (s : State) (op1 : Byte), op1 ≠ 7 ∧ op1.toNat < 8 ∧
      (if op1 = 7 then s.readMem (s.reg 7) else s.reg 7).toNat ≤ 0xFE ∧ s.pc.toNat ≤ 0xFD :=
  ⟨⟨(startAt 0xFD []).setReg 7 0xFF, 7, rfl, by decide, by decide, by decide⟩,
    ⟨(startAt 0xFD []).setReg 7 0xFE, 1, by decide, by decide, by decide, by decide⟩⟩

theorem witness_CallPushesReturnAddressAndJumps :
    ∃ (s : State) (op1 : Byte), op1.toNat < 8 ∧ 1 ≤ (s.reg 7).toNat ∧ s.pc.toNat ≤ 0xFD :=
  ⟨(startAt 0xFD []).setReg 7 1, 7, by decide, by decide, by decide⟩

theorem witness_RetPopsProgramCounter : ∃ s : State, (s.reg 7).toNat ≤ 0xFE :=
  ⟨(start []).setReg 7 0xFE, by decide⟩

theorem witness_RegisterOperandAbove7Faults : ∃ b v : Byte, 8 ≤ b.toNat ∧ v.toNat < 8 := ⟨8, 7, by decide, by decide⟩

theorem witness_StackPointerLeavingMemoryFaults :
    (∃ (s : State) (op1 : Byte), op1.toNat < 8 ∧ s.reg 7 = 0) ∧
    (∃ (s : State) (op1 : Byte), op1.toNat < 8 ∧ op1 ≠ 7 ∧ s.reg 7 = 0xFF) ∧
    ∃ (s : State) (op1 : Byte), op1.toNat < 8 ∧ op1 = 7 ∧ s.readMem (s.reg 7) = 0xFF :=
  ⟨⟨(start []).setReg 7 0, 7, by decide, by decide⟩, ⟨(start []).setReg 7 0xFF, 6, by decide, by decide, by decide⟩,
    ⟨(start []).writeMem 0xF4 0xFF, 7, by decide, rfl, by decide⟩⟩

theorem witness_AdvancePastTopFaults : ∃ (s : State) (op1 op2 : Byte), s.pc = 0xFD ∧ op1.toNat < 8 ∧ op2.toNat < 8 :=
  ⟨startAt 0xFD [], 0, 7, rfl, by decide, by decide⟩

theorem witness_TopOfMemoryCannotExecute :
    (∃ s : State, s.status = .running ∧ 0xFE ≤ s.pc.toNat ∧ s.readMem s.pc ∈ nineOpcodes ∧ s.pc = 0xFE) ∧
      ∃ s : State, s.status = .running ∧ 0xFE ≤ s.pc.toNat ∧ s.readMem s.pc ∈ nineOpcodes ∧ s.pc = 0xFF :=
  ⟨⟨startAt 0xFE [0x01], by decide, by decide, by decide, rfl⟩, ⟨startAt 0xFF [0x01], by decide, by decide, by decide, rfl⟩⟩

theorem witness_FaultsArePrecise : ∃ s t : State, step s = .next t ∧ t.fault ≠ none := by
  obtain ⟨t, h, hp⟩ := next_of_holdsAfter
    (show holdsAfter (step (startAt 0xFD [0x82, 0x00, 0x08])) (fun t => t.fault ≠ none) = true by decide)
  exact ⟨_, t, h, by simpa using hp⟩

theorem witness_AluFaultsNeverArise : ∃ (s t : State) (r : FaultRecord), step s = .next t ∧ t.fault = some r := by
  obtain ⟨t, h, hp⟩ := next_of_holdsAfter test_add_checks_op1_first
  exact ⟨_, t, _, h, by rw [of_decide_eq_true hp]; rfl⟩

theorem witness_RegisterInstructionsFrame :
    (∃ s t : State, exec (.ldi 7 1) s = .next t) ∧ (∃ s t : State, exec (.mul 7 1) s = .next t) ∧
      ∃ s t : State, exec (.add 7 1) s = .next t :=
  ⟨⟨start [], exec_next _ _⟩, ⟨start [], exec_next _ _⟩, ⟨start [], exec_next _ _⟩⟩

theorem witness_OutputAndHaltFrame :
    (∃ s t : State, exec (.prn 7) s = .next t) ∧ ∃ s t : State, exec .hlt s = .next t :=
  ⟨⟨start [], exec_next _ _⟩, ⟨start [], exec_next _ _⟩⟩

theorem witness_StoringInstructionsFrame :
    (∃ s t s1 : State, exec (.push 7) s = .next t ∧ decSp s = .ok s1) ∧
    (∃ (s t : State) (c : FaultCause), exec (.push 7) s = .next t ∧ decSp s = .error c) ∧
    (∃ s t s1 : State, exec (.call 7) s = .next t ∧ decSp s = .ok s1) ∧
    ∃ (s t : State) (c : FaultCause), exec (.call 7) s = .next t ∧ decSp s = .error c := by
  obtain ⟨t, ht⟩ := exec_next (.push 7) (start [])
  obtain ⟨u, hu⟩ := exec_next (.push 7) ((start []).setReg 7 0)
  obtain ⟨v, hv⟩ := exec_next (.call 7) (start [])
  obtain ⟨w, hw⟩ := exec_next (.call 7) ((start []).setReg 7 0)
  have ok : decSp (start []) = .ok ((start []).setReg 7 0xF3) := by decide
  have err : decSp ((start []).setReg 7 0) = .error (.addressRange (-1)) := by decide
  exact ⟨⟨_, t, _, ht, ok⟩, ⟨_, u, _, hu, err⟩, ⟨_, v, _, hv, ok⟩, ⟨_, w, _, hw, err⟩⟩

theorem witness_PoppingInstructionsFrame :
    (∃ s t : State, exec (.pop 1) s = .next t) ∧ ∃ s t : State, exec .ret s = .next t :=
  ⟨⟨start [], exec_next _ _⟩, ⟨start [], exec_next _ _⟩⟩

theorem witness_RunningFlagDiscipline :
    (∃ s t : State, step s = .next t ∧ t.run = false) ∧ (∃ s t : State, step s = .next t ∧ t.run = true) ∧
      (∃ (i : Instr) (s t : State), exec i s = .next t) ∧ ∃ s : State, s.fault = none ∧ s.run = false := by
  obtain ⟨t, h, hp⟩ := next_of_holdsAfter
    (show holdsAfter (step (start [0x01])) (fun t => t.run = false) = true by decide)
  obtain ⟨u, h', hp'⟩ := next_of_holdsAfter
    (show holdsAfter (step (start [0x11])) (fun t => t.run = true) = true by decide)
  exact ⟨⟨_, t, h, by simpa using hp⟩, ⟨_, u, h', by simpa using hp'⟩, ⟨.hlt, start [], exec_next _ _⟩,
    ⟨(start []).clearRun, rfl, rfl⟩⟩

theorem witness_OnlyPrnEmits :
    (∃ s t : State, step s = .next t ∧ s.readMem s.pc = 0x47 ∧ t.fault = none) ∧
      ∃ s t : State, step s = .next t ∧ s.readMem s.pc ≠ 0x47 := by
  obtain ⟨t, h, hp⟩ := next_of_holdsAfter
    (show holdsAfter (step (start [0x47, 0x07])) (fun t => t.fault = none) = true by decide)
  obtain ⟨u, h', _⟩ := next_of_holdsAfter test_ret
  exact ⟨⟨_, t, h, by decide, by simpa using hp⟩, ⟨_, u, h', by decide⟩⟩

theorem witness_OnlyPushAndCallStore : ∃ (s t : State) (a : Byte), step s = .next t ∧ t.readMem a ≠ s.readMem a := by
  obtain ⟨t, h, hp⟩ := next_of_holdsAfter
    (show holdsAfter (step (start [0x45, 0x07])) (fun t => t.readMem 0xF3 ≠ (start [0x45, 0x07]).readMem 0xF3) = true by
      decide)
  exact ⟨_, t, 0xF3, h, by simpa using hp⟩

theorem witness_OutputIsNeverReadBack : ∃ s t : State, step s = .next t := by
  obtain ⟨t, h, _⟩ := next_of_holdsAfter test_prn_last_address
  exact ⟨_, t, h⟩

theorem witness_AccessesFollowTheOrder :
    (∃ s t : State, step s = .next t ∧ t.fault = none ∧ s.readMem s.pc = 0x45) ∧
    (∃ s t : State, step s = .next t ∧ t.fault = none ∧ s.readMem s.pc = 0x46) ∧
    (∃ s t : State, step s = .next t ∧ t.fault = none ∧ s.readMem s.pc = 0x82) ∧
    ∃ s t : State, step s = .next t ∧ t.fault ≠ none := by
  refine ⟨?_, ?_, ?_, witness_FaultsArePrecise⟩
  · obtain ⟨t, h, hp⟩ := next_of_holdsAfter
      (show holdsAfter (step (start [0x45, 0x07])) (fun t => t.fault = none) = true by decide)
    exact ⟨_, t, h, by simpa using hp, by decide⟩
  · obtain ⟨t, h, hp⟩ := next_of_holdsAfter
      (show holdsAfter (step (start [0x46, 0x07])) (fun t => t.fault = none) = true by decide)
    exact ⟨_, t, h, by simpa using hp, by decide⟩
  · obtain ⟨t, h, hp⟩ := next_of_holdsAfter
      (show holdsAfter (step (start [0x82, 0x07])) (fun t => t.fault = none) = true by decide)
    exact ⟨_, t, h, by simpa using hp, by decide⟩

theorem witness_StepDependsOnlyOnCellsItReads : ∃ (s t : State) (m : Memory), m ≠ s.mem ∧
    (∀ a, Access.read a ∈ stepAccesses s → m.read a.toNat = s.readMem a) ∧ step s = .next t := by
  obtain ⟨t, h, _⟩ := next_of_holdsAfter test_ret
  refine ⟨start [0x11], t, (start [0x11]).mem.write 0x80 1, by decide, fun a ha => ?_, h⟩
  have hl : stepAccesses (start [0x11]) = [.read 0x10, .read 0x11, .read 0x12, .read 0xF4] := by decide
  rw [hl] at ha
  simp only [List.mem_cons, Access.read.injEq, List.not_mem_nil, or_false] at ha
  rcases ha with rfl | rfl | rfl | rfl <;> decide

theorem witness_StepIsTheSummaryTable : ∃ s : State, s.status = .running := ⟨start [0x46, 0x07], by decide⟩

theorem witness_AluUnitComputes :
    (∃ (b : RegIdx) (s : State), s.reg b = 0) ∧ ∃ (b : RegIdx) (s : State), s.reg b ≠ 0 :=
  ⟨⟨3, start [], by decide⟩, ⟨5, start [], by decide⟩⟩

theorem witness_CallThenRetReturns : ∃ (s t u : State) (op1 : Byte), op1.toNat < 8 ∧ 1 ≤ (s.reg 7).toNat ∧
    s.pc.toNat ≤ 0xFD ∧ exec (.call op1) s = .next t ∧ u.reg 7 = t.reg 7 ∧
    u.readMem (u.reg 7) = t.readMem (t.reg 7) := by
  obtain ⟨t, h⟩ := exec_next (.call 1) (startAt 0xFD [])
  exact ⟨_, t, t, 1, by decide, by decide, by decide, h, rfl, rfl⟩

theorem witness_PushThenPopRestoresRegisters :
    ∃ (s : State) (op1 : Byte), op1.toNat < 8 ∧ 1 ≤ (s.reg 7).toNat ∧ s.pc.toNat ≤ 0xFB :=
  ⟨(startAt 0xFB []).setReg 7 1, 7, by decide, by decide, by decide⟩

theorem witness_LdiThenPrnOutputsValue : ∃ (s : State) (r : Byte), r.toNat < 8 ∧ s.pc.toNat ≤ 0xFA :=
  ⟨startAt 0xFA [], 7, by decide, by decide⟩

theorem witness_HltFirstChangesNothingElse : ∃ m : Memory, m.read 0 = 0x01 := ⟨[(0, 0x01)], by decide⟩

theorem witness_LaunchPlacesImage :
    (∃ image : List Byte, image.length ≤ 256 ∧ image.length = 256) ∧ ∃ image : List Byte, 256 < image.length :=
  ⟨⟨List.replicate 256 0x01, le_of_eq List.length_replicate, List.length_replicate⟩,
    ⟨List.replicate 257 0x01, by rw [List.length_replicate]; decide⟩⟩

theorem witness_ProgramFileLineIsItsByte :
    (∃ literal : List Char, literal ≠ [] ∧ (∀ c ∈ literal, c = '0' ∨ c = '1') ∧ literal.length ≠ 8) ∧
    ∃ (start : List Char) (c : Char), '#' ∉ start ∧ c ∉ ['0', '1', '#'] ∧ c.isWhitespace = false :=
  ⟨⟨['1', '0', '1'], by simp, by simp, by simp⟩, ⟨['1', ' '], '2', by decide, by decide, by decide⟩⟩

/-- A record with any cause meets the premises on the record. -/
theorem exists_record_of_cause (c : FaultCause) : ∃ (s : State) (r : FaultRecord), s.fault = some r ∧ r.cause = c :=
  ⟨faultedFrom (start []) c, _, rfl, rfl⟩

theorem witness_HostReadsStatusAndRecord :
    (∃ s : State, s.fault = none ∧ s.status = .running) ∧ (∃ s : State, s.fault = none ∧ s.status = .halted) ∧
    (∃ (s : State) (r : FaultRecord), s.fault = some r ∧ r.cause = .unknownOpcode 0xFF) ∧
    (∃ (s : State) (r : FaultRecord), s.fault = some r ∧ r.cause = .addressRange (-1)) ∧
    (∃ (s : State) (r : FaultRecord), s.fault = some r ∧ r.cause = .addressRange 0x100) ∧
    (∃ (s : State) (r : FaultRecord), s.fault = some r ∧ r.cause = .registerRange 0xFF) ∧
    (∃ (s : State) (r : FaultRecord), s.fault = some r ∧ r.cause = .divideByZero) ∧
    ∃ (s : State) (r : FaultRecord), s.fault = some r ∧ r.cause = .unsupportedAluOp :=
  ⟨⟨start [], by decide⟩, ⟨{ start [] with run := false }, by decide⟩, exists_record_of_cause _,
    exists_record_of_cause _, exists_record_of_cause _, exists_record_of_cause _, exists_record_of_cause _,
    exists_record_of_cause _⟩

/-- A file of `n` lines that each hold the byte 1 has no newline in a line, no malformed line, and `n` bytes. -/
theorem byte_lines (n : Nat) :
    (∀ l ∈ List.replicate n (digits 1), '\n' ∉ l) ∧
      (∀ l ∈ List.replicate n (digits 1), parseLine l ≠ .malformed) ∧
      ((List.replicate n (digits 1)).filterMap lineByte).length = n := by
  refine ⟨fun l hl => ?_, fun l hl => ?_, ?_⟩
  · rw [List.eq_of_mem_replicate hl]; decide
  · rw [List.eq_of_mem_replicate hl]; decide
  · rw [List.filterMap_replicate_of_some (show lineByte (digits 1) = some 1 by decide), List.length_replicate]

theorem witness_ProgramFileFillsMemoryInOrder :
    (∃ lines : List (List Char), (∀ l ∈ lines, '\n' ∉ l) ∧ ∃ l ∈ lines, parseLine l = .malformed) ∧
    (∃ lines : List (List Char), (∀ l ∈ lines, '\n' ∉ l) ∧ (∀ l ∈ lines, parseLine l ≠ .malformed) ∧
      (lines.filterMap lineByte).length = 256) ∧
    ∃ lines : List (List Char), (∀ l ∈ lines, '\n' ∉ l) ∧ (∀ l ∈ lines, parseLine l ≠ .malformed) ∧
      (lines.filterMap lineByte).length = 257 :=
  ⟨⟨[digits 1, ['1', '0', '1']], by decide, ['1', '0', '1'], by decide, by decide⟩, ⟨_, byte_lines 256⟩,
    ⟨_, byte_lines 257⟩⟩

theorem exists_launch (image : List Byte) (h : image.length ≤ Config.memSize) : ∃ s, launch image = some s :=
  ⟨_, if_pos h⟩

theorem witness_ReadReturnsLatestWrite :
    ∃ (image : List Byte) (s : State), image.length = 256 ∧ launch image = some s := by
  have h : (List.replicate 256 (0x01 : Byte)).length = 256 := List.length_replicate
  obtain ⟨s, hs⟩ := exists_launch _ (le_of_eq h)
  exact ⟨_, s, h, hs⟩

end Sys2Proof.Tests
end

section
/-! The state is its six parts (R20): what a canonical memory reads outside the 256 addresses, and from it that the
256 cells as the machine reads them fix the memory. -/

namespace Sys2Proof.Machine

/-- A cell that is not listed holds the reset byte (R176). -/
theorem Memory.read_of_not_listed (m : Memory) (a : Nat) (h : ∀ c ∈ m, c.1 ≠ a) : m.read a = Config.cellReset := by
  induction m with
  | nil => rfl
  | cons c m ih =>
    have hc : a ≠ c.1 := (h c List.mem_cons_self).symm
    rw [Memory.read, if_neg hc, ih fun d hd => h d (List.mem_cons_of_mem c hd)]

/-- A canonical memory lists no cell outside the address space (R16). -/
theorem Memory.read_of_memSize_le (m : Memory) (h : m.wf = true) (a : Nat) (ha : Config.memSize ≤ a) :
    m.read a = Config.cellReset := by
  obtain ⟨-, listed⟩ := (Memory.wf_iff m).mp h
  exact m.read_of_not_listed a fun c hc => Nat.ne_of_lt (Nat.lt_of_lt_of_le (listed c hc).1 ha)

/-- Two canonical memories whose cells the machine reads alike are the same memory (R16, R31): an address below
`memSize` is a byte, and above it both read as the reset byte. -/
theorem State.mem_eq_of_readMem (s t : State) (hs : s.mem.wf = true) (ht : t.mem.wf = true)
    (h : ∀ a : Byte, s.readMem a = t.readMem a) : s.mem = t.mem := by
  refine Memory.ext_of_read s.mem t.mem hs ht fun a => ?_
  rcases Nat.lt_or_ge a Config.memSize with inside | outside
  · have toNat_a : (BitVec.ofNat 8 a).toNat = a :=
      (BitVec.toNat_ofNat a 8).trans (Nat.mod_eq_of_lt inside)
    have cell := h (BitVec.ofNat 8 a)
    rwa [State.readMem, State.readMem, toNat_a] at cell
  · rw [s.mem.read_of_memSize_le hs a outside, t.mem.read_of_memSize_le ht a outside]

/-- Settles O6: the cells as read fix the canonical memory, and the other five parts are compared field by field. -/
theorem noStateBeyondTheSixParts : Obligations.NoStateBeyondTheSixParts := by
  intro s t hs ht hreg hpc hread hrun hfault hout
  exact State.ext_fields s t hreg hpc (s.mem_eq_of_readMem t hs ht hread) hrun hfault hout

end Sys2Proof.Machine
end

section
/-! Memory reads after writes and after the load (R31, R172): what one cell reads after a list of writes, and what each
cell reads in a launch state. -/

namespace Sys2Proof.Machine

/-- The list is taken apart at its end, where the latest write stands: it decides the read if it hits the cell, and
otherwise the cell reads as it did before that write. -/
theorem State.readMem_foldl_writeMem (s : State) (writes : List (Byte × Byte)) (a : Byte) :
    (writes.foldl (fun t w => t.writeMem w.1 w.2) s).readMem a =
      ((writes.filter fun w => w.1 = a).getLast?.map Prod.snd).getD (s.readMem a) := by
  induction writes using List.reverseRecOn with
  | nil => rfl
  | append_singleton writes w ih =>
    rw [List.foldl_concat, State.writeMem_readMem, List.filter_append]
    by_cases hit : w.1 = a
    · simp [hit]
    · simp [hit, Ne.symm hit, ih]

/-- A launch state reads as its image, stored upward from address 0 in a memory that lists no cell (R172, R176). -/
theorem launch_readMem {image : List Byte} {s : State} (h : launch image = some s) (a : Byte) :
    s.readMem a = image.getD a.toNat 0 := by
  obtain ⟨-, loaded⟩ := Option.ite_none_right_eq_some.mp h
  obtain rfl := Option.some.inj loaded
  rw [State.readMem, Memory.read_store, Nat.zero_add, Nat.sub_zero, Memory.read_nil]
  by_cases inside : a.toNat < image.length
  · rw [if_pos ⟨Nat.zero_le _, inside⟩]
  · rw [if_neg fun ⟨_, below⟩ => inside below, List.getD_eq_default _ _ (Nat.le_of_not_lt inside)]

/-- Settles O51: the latest write by induction on the writes, and every address lies inside an image of 256 bytes. -/
theorem readReturnsLatestWrite : Obligations.ReadReturnsLatestWrite := by
  intro s writes a
  refine ⟨s.readMem_foldl_writeMem writes a, fun image full launched => ?_⟩
  have inside : a.toNat < image.length := full ▸ a.isLt
  rw [launch_readMem launched, List.getD_eq_getElem _ _ inside, List.getElem?_eq_getElem inside]

end Sys2Proof.Machine
end

section
/-! CALL and RET where they complete, and the pairing of the two (R125, R126, R127). -/

namespace Sys2Proof.Machine

/-- A CALL that names a register, with room on the stack, pushes its return address and jumps to the register as it
stands after the push (R125). -/
theorem exec_call_next {op1 : Byte} {s : State} (h : op1.toNat < 8) (room : s.reg 7 ≠ 0) :
    exec (.call op1) s =
      .next ((pushed returnAddress s).setPc ((pushed returnAddress s).reg ⟨op1.toNat, h⟩)) := by
  rw [exec_call, dif_pos h, if_neg room]
  rfl

/-- A RET whose stack pointer is below the top of memory takes `pc` from the cell there (R126). -/
theorem exec_ret_next {s : State} (below : s.reg 7 ≠ 0xFF) :
    exec .ret s = .next ((s.setReg 7 (s.reg 7 + 1)).setPc (s.readMem (s.reg 7))) := by
  rw [exec_ret, if_neg below]
  rfl

/-- A push takes one byte of stack (R115). -/
theorem pushed_sp_toNat (value : State → Byte) {s : State} (room : 1 ≤ (s.reg 7).toNat) :
    ((pushed value s).reg 7).toNat + 1 = (s.reg 7).toNat := by
  rw [pushed_reg, if_pos rfl]
  bv_omega

/-- The stack pointer of a push that had room is below the top of memory, so a pop there cannot fault (R118). -/
theorem pushed_sp_ne_top (value : State → Byte) {s : State} (room : 1 ≤ (s.reg 7).toNat) :
    (pushed value s).reg 7 ≠ 0xFF := by
  have sp := pushed_sp_toNat value room
  bv_omega

/-- The cell on top of the stack holds the return address, which does not depend on the stack pointer (R125). -/
theorem pushed_returnAddress_top (s : State) :
    (pushed returnAddress s).readMem ((pushed returnAddress s).reg 7) = s.pc + 2 := by
  rw [pushed_reg, if_pos rfl, pushed_readMem, if_pos rfl]
  rfl

/-- Settles O43: the RET finds the stack pointer of the CALL's push, below the top of memory, and the return address in
the cell there. -/
theorem callThenRetReturns : Obligations.CallThenRetReturns := by
  intro s op1 h room low
  have nonzero : s.reg 7 ≠ 0 := by bv_omega
  refine ⟨_, exec_call_next h nonzero, pushed_sp_toNat returnAddress room,
    fun u (sp : u.reg 7 = (pushed returnAddress s).reg 7) cell => ?_⟩
  have top : u.readMem (u.reg 7) = s.pc + 2 := cell.trans (pushed_returnAddress_top s)
  have below : u.reg 7 ≠ 0xFF := sp ▸ pushed_sp_ne_top returnAddress room
  refine ⟨_, exec_ret_next below, rfl, ?_, ?_⟩
  · rw [State.setPc_pc, top]
    bv_omega
  · rw [State.setPc_reg, State.setReg_reg, if_pos rfl, sp, pushed_reg, if_pos rfl, BitVec.sub_add_cancel]

end Sys2Proof.Machine
end

section
/-! Every meaning as a total table: the first check that fails, in the order of R149, and the effect where none fails
(R70, R148). `exec_eq` ties the two to `exec`; statements about single instructions and about the step go through it. -/

namespace Sys2Proof.Machine

/-! ### The checks -/

/-- The register an operand byte names; the byte itself where it passes `checkReg` (R12). -/
def regOf (b : Byte) : RegIdx := Fin.ofNat 8 b.toNat

/-- A checked operand byte as a register index has one spelling, `regOf`. -/
@[simp] theorem mk_eq_regOf (b : Byte) (h : b.toNat < 8) : (⟨b.toNat, h⟩ : RegIdx) = regOf b :=
  Fin.ext (Nat.mod_eq_of_lt h).symm

theorem regOf_val {b : Byte} (h : b.toNat < 8) : (regOf b).val = b.toNat := Nat.mod_eq_of_lt h

theorem eq_regOf_iff {b : Byte} (h : b.toNat < 8) (i : RegIdx) : i = regOf b ↔ i.val = b.toNat := by
  rw [Fin.ext_iff, regOf_val h]

theorem regOf_eq_seven_iff {b : Byte} (h : b.toNat < 8) : regOf b = 7 ↔ b = 7 := by
  rw [eq_comm, eq_regOf_iff h, eq_comm, ← BitVec.toNat_inj]
  rfl

theorem seven_eq_regOf_iff {b : Byte} (h : b.toNat < 8) : 7 = regOf b ↔ b = 7 := by
  rw [eq_comm, regOf_eq_seven_iff h]

/-- What `checkReg` raises (R12). -/
def operandFault (b : Byte) : Option FaultCause := if 8 ≤ b.toNat then some (.registerRange b) else none

/-- What a push raises (R118). -/
def pushFault (sp : Byte) : Option FaultCause := if sp = 0 then some (.addressRange (-1)) else none

/-- What the increment after a pop raises (R118). -/
def popFault (sp : Byte) : Option FaultCause := if sp = 0xFF then some (.addressRange 0x100) else none

/-- What the advance by `k` bytes raises (R75). -/
def advanceFault (p : Byte) (k : Nat) : Option FaultCause :=
  if 0xFF < p.toNat + k then some (.addressRange ((p.toNat : Int) + k)) else none

@[simp] theorem operandFault_none (b : Byte) : operandFault b = none ↔ b.toNat < 8 := by simp [operandFault]
@[simp] theorem pushFault_none (sp : Byte) : pushFault sp = none ↔ sp ≠ 0 := by simp [pushFault]
@[simp] theorem popFault_none (sp : Byte) : popFault sp = none ↔ sp ≠ 0xFF := by simp [popFault]
@[simp] theorem advanceFault_none (p : Byte) (k : Nat) : advanceFault p k = none ↔ p.toNat + k ≤ 0xFF := by
  simp [advanceFault]

@[simp] theorem operandFault_some (b : Byte) (c : FaultCause) :
    operandFault b = some c ↔ 8 ≤ b.toNat ∧ .registerRange b = c := by
  simp [operandFault]
@[simp] theorem pushFault_some (sp : Byte) (c : FaultCause) :
    pushFault sp = some c ↔ sp = 0 ∧ .addressRange (-1) = c := by
  simp [pushFault]
@[simp] theorem popFault_some (sp : Byte) (c : FaultCause) :
    popFault sp = some c ↔ sp = 0xFF ∧ .addressRange 0x100 = c := by
  simp [popFault]
@[simp] theorem advanceFault_some (p : Byte) (k : Nat) (c : FaultCause) :
    advanceFault p k = some c ↔ 0xFF < p.toNat + k ∧ .addressRange ((p.toNat : Int) + k) = c := by
  simp [advanceFault]

/-- POP's destination written, before the increment of register 7 (R117). -/
def loaded (op1 : Byte) (s : State) : State := s.setReg (regOf op1) (s.readMem (s.reg 7))

@[simp] theorem loaded_reg (op1 : Byte) (s : State) (j : RegIdx) :
    (loaded op1 s).reg j = if j = regOf op1 then s.readMem (s.reg 7) else s.reg j := State.setReg_reg ..

/-- The stack pointer that POP increments: the popped byte for register 7 (D23). -/
theorem loaded_sp {op1 : Byte} (h : op1.toNat < 8) (s : State) :
    (loaded op1 s).reg 7 = if op1 = 7 then s.readMem (s.reg 7) else s.reg 7 := by
  simp only [loaded_reg, seven_eq_regOf_iff h]

/-- The first failing check of an instruction after its fetch (R149). -/
def firstFault : Instr → State → Option FaultCause
  | .ldi op1 _, s => (operandFault op1).or (advanceFault s.pc 3)
  | .prn op1, s => (operandFault op1).or (advanceFault s.pc 2)
  | .hlt, s => advanceFault s.pc 1
  | .mul op1 op2, s => (operandFault op1).or ((operandFault op2).or (advanceFault s.pc 3))
  | .add op1 op2, s => (operandFault op1).or ((operandFault op2).or (advanceFault s.pc 3))
  | .push op1, s => (operandFault op1).or ((pushFault (s.reg 7)).or (advanceFault s.pc 2))
  | .pop op1, s => (operandFault op1).or ((popFault ((loaded op1 s).reg 7)).or (advanceFault s.pc 2))
  | .call op1, s => (operandFault op1).or (pushFault (s.reg 7))
  | .ret, s => popFault (s.reg 7)

/-! The checks of each instruction, read off as conditions. -/

section

variable (op1 op2 : Byte) (s : State)

@[simp] theorem firstFault_ldi_none : firstFault (.ldi op1 op2) s = none ↔ op1.toNat < 8 ∧ s.pc.toNat + 3 ≤ 0xFF := by
  simp only [firstFault, Option.or_eq_none_iff, operandFault_none, advanceFault_none]
@[simp] theorem firstFault_prn_none : firstFault (.prn op1) s = none ↔ op1.toNat < 8 ∧ s.pc.toNat + 2 ≤ 0xFF := by
  simp only [firstFault, Option.or_eq_none_iff, operandFault_none, advanceFault_none]
@[simp] theorem firstFault_hlt_none : firstFault .hlt s = none ↔ s.pc.toNat + 1 ≤ 0xFF := advanceFault_none ..
@[simp] theorem firstFault_mul_none :
    firstFault (.mul op1 op2) s = none ↔ op1.toNat < 8 ∧ op2.toNat < 8 ∧ s.pc.toNat + 3 ≤ 0xFF := by
  simp only [firstFault, Option.or_eq_none_iff, operandFault_none, advanceFault_none]
@[simp] theorem firstFault_add_none :
    firstFault (.add op1 op2) s = none ↔ op1.toNat < 8 ∧ op2.toNat < 8 ∧ s.pc.toNat + 3 ≤ 0xFF := by
  simp only [firstFault, Option.or_eq_none_iff, operandFault_none, advanceFault_none]
@[simp] theorem firstFault_push_none :
    firstFault (.push op1) s = none ↔ op1.toNat < 8 ∧ s.reg 7 ≠ 0 ∧ s.pc.toNat + 2 ≤ 0xFF := by
  simp only [firstFault, Option.or_eq_none_iff, operandFault_none, pushFault_none, advanceFault_none]
@[simp] theorem firstFault_pop_none :
    firstFault (.pop op1) s = none ↔ op1.toNat < 8 ∧ (loaded op1 s).reg 7 ≠ 0xFF ∧ s.pc.toNat + 2 ≤ 0xFF := by
  simp only [firstFault, Option.or_eq_none_iff, operandFault_none, popFault_none, advanceFault_none]
@[simp] theorem firstFault_call_none : firstFault (.call op1) s = none ↔ op1.toNat < 8 ∧ s.reg 7 ≠ 0 := by
  simp only [firstFault, Option.or_eq_none_iff, operandFault_none, pushFault_none]
@[simp] theorem firstFault_ret_none : firstFault .ret s = none ↔ s.reg 7 ≠ 0xFF := popFault_none _

end

/-- The effect of an instruction whose checks all pass. -/
def effect : Instr → State → State
  | .ldi op1 op2, s => (s.setReg (regOf op1) op2).setPc (s.pc + 3)
  | .prn op1, s => (s.emit (s.reg (regOf op1))).setPc (s.pc + 2)
  | .hlt, s => s.clearRun.setPc (s.pc + 1)
  | .mul op1 op2, s =>
    (s.setReg (regOf op1) (BitVec.ofNat 8 ((s.reg (regOf op1)).toNat * (s.reg (regOf op2)).toNat))).setPc (s.pc + 3)
  | .add op1 op2, s =>
    (s.setReg (regOf op1) (BitVec.ofNat 8 ((s.reg (regOf op1)).toNat + (s.reg (regOf op2)).toNat))).setPc (s.pc + 3)
  | .push op1, s => (pushed (fun t => t.reg (regOf op1)) s).setPc (s.pc + 2)
  | .pop op1, s => ((loaded op1 s).setReg 7 ((loaded op1 s).reg 7 + 1)).setPc (s.pc + 2)
  | .call op1, s => (pushed returnAddress s).setPc ((pushed returnAddress s).reg (regOf op1))
  | .ret, s => (s.setReg 7 (s.reg 7 + 1)).setPc (s.readMem (s.reg 7))

/-- The end of an instruction that began in `s`: the fault of its first failing check alone, or its effect (R148). -/
def settle (s : State) : Option FaultCause → State → State
  | some c, _ => s.raise c
  | none, t => t

theorem conclude_advanced (s t : State) (k : Nat) :
    conclude s (advanced k t) = .next (settle s (advanceFault t.pc k) (t.setPc (t.pc + BitVec.ofNat 8 k))) := by
  unfold advanced advanceFault
  by_cases h : t.pc.toNat + k ≤ 0xFF
  · rw [if_pos h, if_neg (Nat.not_lt.mpr h)]
    rfl
  · rw [if_neg h, if_pos (Nat.not_le.mp h)]
    rfl

/-- An operand check before the rest of an instruction. -/
theorem conclude_operand {s t : State} {b : Byte} {f : b.toNat < 8 → Except FaultCause State}
    {later : Option FaultCause} (rest : ∀ h, conclude s (f h) = .next (settle s later t)) :
    conclude s (if h : b.toNat < 8 then f h else .error (.registerRange b)) =
      .next (settle s ((operandFault b).or later) t) := by
  unfold operandFault
  by_cases h : b.toNat < 8
  · rw [dif_pos h, if_neg (Nat.not_le.mpr h)]
    exact rest h
  · rw [dif_neg h, if_pos (Nat.not_lt.mp h)]
    rfl

/-- A check of the stack pointer before the rest of an instruction. -/
theorem conclude_guard {s t : State} {p : Prop} [Decidable p] {c : FaultCause} {r : Except FaultCause State}
    {later : Option FaultCause} (rest : conclude s r = .next (settle s later t)) :
    conclude s (if p then .error c else r) = .next (settle s ((if p then some c else none).or later) t) := by
  by_cases h : p
  · rw [if_pos h, if_pos h]
    rfl
  · rw [if_neg h, if_neg h]
    exact rest

theorem conclude_aluForm (value : Byte → Byte → Byte) (op1 op2 : Byte) (s : State) :
    conclude s (aluForm value op1 op2 s) =
      .next (settle s ((operandFault op1).or ((operandFault op2).or (advanceFault s.pc 3)))
        ((s.setReg (regOf op1) (value (s.reg (regOf op1)) (s.reg (regOf op2)))).setPc (s.pc + 3))) := by
  simp only [aluForm, mk_eq_regOf]
  exact conclude_operand fun _ => conclude_operand fun _ => conclude_advanced ..

/-- What every instruction answers: the fault of its first failing check, or its effect (R148, R149). -/
theorem exec_eq (i : Instr) (s : State) : exec i s = .next (settle s (firstFault i s) (effect i s)) := by
  cases i with
  | ldi op1 op2 =>
    simp only [exec_ldi, mk_eq_regOf]
    exact conclude_operand fun _ => conclude_advanced ..
  | prn op1 =>
    simp only [exec_prn, mk_eq_regOf]
    exact conclude_operand fun _ => conclude_advanced ..
  | hlt => exact (exec_hlt s).trans (conclude_advanced ..)
  | mul op1 op2 => exact (exec_mul op1 op2 s).trans (conclude_aluForm ..)
  | add op1 op2 => exact (exec_add op1 op2 s).trans (conclude_aluForm ..)
  | push op1 =>
    simp only [exec_push, mk_eq_regOf]
    exact conclude_operand fun _ => conclude_guard (conclude_advanced ..)
  | pop op1 =>
    simp only [exec_pop, mk_eq_regOf]
    exact conclude_operand fun _ => conclude_guard (conclude_advanced ..)
  | call op1 =>
    simp only [exec_call, mk_eq_regOf]
    rw [firstFault, ← Option.or_none (o := pushFault (s.reg 7))]
    exact conclude_operand fun _ => conclude_guard rfl
  | ret =>
    rw [exec_ret, firstFault, ← Option.or_none (o := popFault (s.reg 7))]
    exact conclude_guard rfl

/-- An instruction whose checks pass answers its effect. -/
theorem exec_of_firstFault_none {i : Instr} {s : State} (h : firstFault i s = none) :
    exec i s = .next (effect i s) := by
  rw [exec_eq, h]
  rfl

/-- An instruction whose check fails answers that fault alone. -/
theorem exec_of_firstFault_some {i : Instr} {s : State} {c : FaultCause} (h : firstFault i s = some c) :
    exec i s = .next (s.raise c) := by
  rw [exec_eq, h]
  rfl

/-- All that a next state of an instruction can be. -/
theorem exec_next_cases {i : Instr} {s t : State} (h : exec i s = .next t) :
    (∃ c, firstFault i s = some c ∧ t = s.raise c) ∨ (firstFault i s = none ∧ t = effect i s) := by
  rw [exec_eq] at h
  injection h with h
  cases hc : firstFault i s with
  | none => exact .inr ⟨rfl, by rw [← h, hc]; rfl⟩
  | some c => exact .inl ⟨c, rfl, by rw [← h, hc]; rfl⟩

end Sys2Proof.Machine
end

section
/-! Single instructions where they complete and where they fault (R90 to R127): the checks that pass, and the effect
read field by field. -/

namespace Sys2Proof.Machine

open Sys2Proof.Claims

variable {s : State} {op1 op2 : Byte}

/-- An advance that stays inside memory does not wrap (R75). -/
theorem toNat_add_of_room {p : Byte} {k : Nat} (room : p.toNat + k ≤ 0xFF) :
    (p + BitVec.ofNat 8 k).toNat = p.toNat + k := by
  rw [← addr_add, BitVec.toNat_ofNat]
  omega

theorem reg_seven_ne_zero (room : 1 ≤ (s.reg 7).toNat) : s.reg 7 ≠ 0 := by bv_omega

theorem toNat_sub_one {sp : Byte} (room : 1 ≤ sp.toNat) : (sp - 1).toNat = sp.toNat - 1 := by bv_omega

theorem toNat_add_one {sp : Byte} (below : sp.toNat ≤ 0xFE) : (sp + 1).toNat = sp.toNat + 1 := by bv_omega

theorem ne_top_of_toNat_le {sp : Byte} (below : sp.toNat ≤ 0xFE) : sp ≠ 0xFF := by bv_omega

/-! ### LDI, MUL and ADD -/

/-- What an instruction that writes one register and advances by three leaves behind. -/
theorem setReg_setPc_frame (h : op1.toNat < 8) (v : Byte) (low : s.pc.toNat ≤ 0xFC) :
    let t := (s.setReg (regOf op1) v).setPc (s.pc + 3)
    (∀ i : RegIdx, i.val ≠ op1.toNat → t.reg i = s.reg i) ∧ t.pc.toNat = s.pc.toNat + 3 ∧
      (∀ a, t.readMem a = s.readMem a) ∧ t.run = s.run ∧ t.fault = s.fault ∧ t.out = s.out := by
  refine ⟨fun i other => ?_, toNat_add_of_room (k := 3) (by omega), fun _ => rfl, rfl, rfl, rfl⟩
  rw [State.setPc_reg, State.setReg_reg, if_neg (mt (eq_regOf_iff h i).mp other)]

theorem setReg_setPc_reg (v p : Byte) (i : RegIdx) : ((s.setReg i v).setPc p).reg i = v := by simp

/-- Settles O16: both checks pass, and the effect is one register write and the advance. -/
theorem ldiLoadsImmediate : Obligations.LdiLoadsImmediate := by
  intro s op1 op2 h low
  have passes : firstFault (.ldi op1 op2) s = none := (firstFault_ldi_none ..).mpr ⟨h, by omega⟩
  exact ⟨_, exec_of_firstFault_none passes, mk_eq_regOf op1 h ▸ setReg_setPc_reg .., setReg_setPc_frame h _ low⟩

/-- Settles O19: the three checks pass, and the register write is the product reduced to a byte. -/
theorem mulMultipliesModulo256 : Obligations.MulMultipliesModulo256 := by
  intro s op1 op2 h1 h2 low
  have passes : firstFault (.mul op1 op2) s = none := (firstFault_mul_none ..).mpr ⟨h1, h2, by omega⟩
  simp only [mk_eq_regOf]
  refine ⟨_, exec_of_firstFault_none passes, ?_, setReg_setPc_frame h1 _ low⟩
  rw [effect, setReg_setPc_reg]
  exact BitVec.toNat_ofNat ..

/-- Settles O20: the three checks pass, and the register write is the sum reduced to a byte. -/
theorem addAddsModulo256 : Obligations.AddAddsModulo256 := by
  intro s op1 op2 h1 h2 low
  have passes : firstFault (.add op1 op2) s = none := (firstFault_add_none ..).mpr ⟨h1, h2, by omega⟩
  simp only [mk_eq_regOf]
  refine ⟨_, exec_of_firstFault_none passes, ?_, setReg_setPc_frame h1 _ low⟩
  rw [effect, setReg_setPc_reg]
  exact BitVec.toNat_ofNat ..

/-- Settles O27: the register checks pass and the advance from 0xFD by three is the one that fails. -/
theorem advancePastTopFaults : Obligations.AdvancePastTopFaults := by
  intro s op1 op2 top h1
  have past : advanceFault s.pc 3 = some (.addressRange 0x100) := by rw [top]; rfl
  have first : operandFault op1 = none := (operandFault_none op1).mpr h1
  refine ⟨exec_of_firstFault_some (by simp only [firstFault, first, past, Option.none_or]), fun h2 => ?_⟩
  have second : operandFault op2 = none := (operandFault_none op2).mpr h2
  exact ⟨exec_of_firstFault_some (by simp only [firstFault, first, second, past, Option.none_or]),
    exec_of_firstFault_some (by simp only [firstFault, first, second, past, Option.none_or])⟩

/-! ### PRN and HLT -/

/-- Settles O17: both checks pass, and the effect is one emitted byte and the advance. -/
theorem prnEmitsRegister : Obligations.PrnEmitsRegister := by
  intro s op1 h low
  have passes : firstFault (.prn op1) s = none := (firstFault_prn_none ..).mpr ⟨h, by omega⟩
  simp only [mk_eq_regOf]
  exact ⟨_, exec_of_firstFault_none passes, rfl, fun _ => rfl, toNat_add_of_room (k := 2) (by omega), fun _ => rfl, rfl,
    rfl⟩

/-- Settles O18: the advance passes, and `RUN` false without a fault is HALTED, which has no step. -/
theorem hltEndsTheRunNormally : Obligations.HltEndsTheRunNormally := by
  intro s healthy low
  have passes : firstFault .hlt s = none := (firstFault_hlt_none s).mpr (by omega)
  have halted : (effect .hlt s).status = .halted := (State.status_halted_iff _).mpr ⟨healthy, rfl⟩
  have stops : step (effect .hlt s) = .fault .halted := by
    simp only [step, halted, reduceCtorEq, if_false, show (effect .hlt s).fault = none from healthy]
  exact ⟨_, exec_of_firstFault_none passes, rfl, toNat_add_of_room (k := 1) (by omega), healthy, fun _ => rfl,
    fun _ => rfl, rfl, halted, by rw [halted]; decide, stops, by rw [State.exitCode, halted]⟩

/-- Settles O45: the PRN emits the register that the LDI has just written. -/
theorem ldiThenPrnOutputsValue : Obligations.LdiThenPrnOutputsValue := by
  intro s r v h low
  obtain ⟨t, ldi, value, -, pc, -, -, -, out⟩ := ldiLoadsImmediate s r v h (by omega)
  obtain ⟨u, prn, emitted, -, pc', -⟩ := prnEmitsRegister t r h (by omega)
  exact ⟨t, u, ldi, prn, by rw [emitted, value, out], by omega⟩

/-! ### The stack -/

/-- Settles O21: the three checks pass, and the stored value is read after the decrement. -/
theorem pushStoresRegister : Obligations.PushStoresRegister := by
  intro s op1 h room low
  have passes : firstFault (.push op1) s = none :=
    (firstFault_push_none ..).mpr ⟨h, reg_seven_ne_zero room, by omega⟩
  have sp : (effect (.push op1) s).reg 7 = s.reg 7 - 1 := by simp [effect]
  simp only [mk_eq_regOf]
  refine ⟨_, exec_of_firstFault_none passes, by rw [sp, toNat_sub_one room], fun a => ?_, fun i other => ?_,
    toNat_add_of_room (k := 2) (by omega), rfl, rfl, rfl⟩
  · rw [sp]
    simp only [effect, State.setPc_readMem, pushed_readMem, State.setReg_reg, regOf_eq_seven_iff h]
  · simp [effect, other]

/-- Settles O23: both checks pass, and the target is read after the push. -/
theorem callPushesReturnAddressAndJumps : Obligations.CallPushesReturnAddressAndJumps := by
  intro s op1 h room low
  have passes : firstFault (.call op1) s = none := (firstFault_call_none ..).mpr ⟨h, reg_seven_ne_zero room⟩
  have sp : (effect (.call op1) s).reg 7 = s.reg 7 - 1 := by simp [effect]
  simp only [mk_eq_regOf]
  refine ⟨_, exec_of_firstFault_none passes, by rw [sp, toNat_sub_one room], ?_, fun a other => ?_, ?_,
    fun i other => ?_, rfl, rfl, rfl⟩
  · exact (congrArg BitVec.toNat (pushed_returnAddress_top s)).trans (toNat_add_of_room (k := 2) (by omega))
  · rw [sp] at other
    simp only [effect, State.setPc_readMem, pushed_readMem, if_neg other]
  · simp only [effect, State.setPc_pc, pushed_reg, regOf_eq_seven_iff h]
  · simp [effect, other]

/-- Settles O22: the three checks pass, the second on register 7 as the load left it. -/
theorem popLoadsRegister : Obligations.PopLoadsRegister := by
  intro s op1 h below low
  rw [← loaded_sp h] at below
  simp only [← loaded_sp h, mk_eq_regOf]
  have passes : firstFault (.pop op1) s = none :=
    (firstFault_pop_none ..).mpr ⟨h, ne_top_of_toNat_le below, by omega⟩
  refine ⟨_, exec_of_firstFault_none passes, fun other => ?_, ?_, fun i hi other => ?_,
    toNat_add_of_room (k := 2) (by omega), fun _ => rfl, rfl, rfl, rfl⟩
  · simp [effect, mt (regOf_eq_seven_iff h).mp other]
  · rw [effect, setReg_setPc_reg, toNat_add_one below]
  · simp [effect, hi, mt (eq_regOf_iff h i).mp other]

/-- Settles O24: the one check passes. -/
theorem retPopsProgramCounter : Obligations.RetPopsProgramCounter := by
  intro s below
  have passes : firstFault .ret s = none := (firstFault_ret_none s).mpr (ne_top_of_toNat_le below)
  refine ⟨_, exec_of_firstFault_none passes, rfl, ?_, fun i other => ?_, fun _ => rfl, rfl, rfl, rfl⟩
  · rw [effect, setReg_setPc_reg, toNat_add_one below]
  · simp [effect, other]

/-- Settles O26: the operand check passes and the stack pointer's is the one that fails. -/
theorem stackPointerLeavingMemoryFaults : Obligations.StackPointerLeavingMemoryFaults := by
  intro s op1 h
  have first : operandFault op1 = none := (operandFault_none op1).mpr h
  have pop (top : (loaded op1 s).reg 7 = 0xFF) : exec (.pop op1) s = .next (s.raise (.addressRange 0x100)) :=
    exec_of_firstFault_some (by rw [firstFault, first, top]; rfl)
  refine ⟨fun zero => ⟨?_, ?_⟩, fun top => ?_, fun other top => pop ?_, fun same top => pop ?_⟩
  · exact exec_of_firstFault_some (by rw [firstFault, first, zero]; rfl)
  · exact exec_of_firstFault_some (by rw [firstFault, first, zero]; rfl)
  · exact exec_of_firstFault_some (by rw [firstFault, top]; rfl)
  · rw [loaded_sp h, if_neg other, top]
  · rw [loaded_sp h, if_pos same, top]

/-- Settles O25: the check of the first register operand comes first, and of MUL's and ADD's second one next. -/
theorem registerOperandAbove7Faults : Obligations.RegisterOperandAbove7Faults := by
  intro s b v above
  have bad : operandFault b = some (.registerRange b) := if_pos above
  have first {i : Instr} {later : Option FaultCause} (h : firstFault i s = (operandFault b).or later) :
      exec i s = .next (s.raise (.registerRange b)) :=
    exec_of_firstFault_some (by rw [h, bad, Option.some_or])
  refine ⟨first rfl, first rfl, first rfl, first rfl, first rfl, first rfl, first rfl, fun hv => ?_⟩
  have good : operandFault v = none := (operandFault_none v).mpr hv
  exact ⟨exec_of_firstFault_some (by rw [firstFault, good, bad]; rfl),
    exec_of_firstFault_some (by rw [firstFault, good, bad]; rfl)⟩

/-- Settles O44: the POP finds the stored value under the stack pointer that the PUSH left. For register 7 that value is
the decremented pointer itself, so the increment restores it too (D23). -/
theorem pushThenPopRestoresRegisters : Obligations.PushThenPopRestoresRegisters := by
  intro s op1 h room low
  obtain ⟨t, push, sp, cell, regs, pc, -, fault, -⟩ := pushStoresRegister s op1 h room (by omega)
  have top := cell (t.reg 7)
  rw [if_pos rfl] at top
  have sp' : t.reg 7 = s.reg 7 - 1 := BitVec.eq_of_toNat_eq (by rw [sp, toNat_sub_one room])
  have loadedSp : (if op1 = 7 then t.readMem (t.reg 7) else t.reg 7) = s.reg 7 - 1 := by
    rw [top, sp']
    split <;> rfl
  have below : (s.reg 7 - 1).toNat ≤ 0xFE := by bv_omega
  obtain ⟨u, pop, dest, popSp, regs', pc', cell', -, fault', -⟩ :=
    popLoadsRegister t op1 h (by rw [loadedSp]; exact below) (by omega)
  refine ⟨t, u, push, pop, fun i => ?_, by omega, fun a other => ?_, fault'.trans fault⟩
  · by_cases seven : i = 7
    · rw [seven]
      refine BitVec.eq_of_toNat_eq ?_
      rw [popSp, loadedSp]
      bv_omega
    · by_cases named : i.val = op1.toNat
      · obtain rfl : i = ⟨op1.toNat, h⟩ := Fin.ext named
        have other : op1 ≠ 7 := fun e => seven (by subst e; rfl)
        rw [dest other, top, if_neg other]
      · rw [regs' i seven named, regs i seven]
  · rw [cell', cell, if_neg (sp' ▸ other)]

end Sys2Proof.Machine
end

section
/-! The decoder against the encoder (R50, R52, R54): what a byte list that decodes looks like, and that the encoding
of an instruction is its opcode and the operand bytes that the opcode counts. -/

namespace Sys2Proof

open Sys2Proof.Claims

/-- An opcode of the table with its operand bytes behind it decodes (R50). -/
theorem decode_of_lookup {ir : Byte} {build : Byte → Byte → Instr} (table : lookup ir = some build) {tail : List Byte}
    (long : operandCount ir ≤ tail.length) :
    decode (ir :: tail) = .ok (build (tail.getD 0 0) (tail.getD 1 0), tail.drop (operandCount ir)) := by
  simp only [decode, table, if_neg (Nat.not_lt.mpr long)]

/-- Nothing else decodes. -/
theorem decode_ok_cases {bytes rest : List Byte} {i : Instr} (h : decode bytes = .ok (i, rest)) :
    ∃ ir tail build, bytes = ir :: tail ∧ lookup ir = some build ∧ operandCount ir ≤ tail.length ∧
      i = build (tail.getD 0 0) (tail.getD 1 0) ∧ rest = tail.drop (operandCount ir) := by
  cases bytes with
  | nil => cases h
  | cons ir tail =>
    cases table : lookup ir with
    | none => simp [decode, table] at h
    | some build =>
      by_cases short : tail.length < operandCount ir
      · simp [decode, table, short] at h
      · rw [decode_of_lookup table (Nat.not_lt.mp short)] at h
        cases h
        exact ⟨ir, tail, build, rfl, table, Nat.not_lt.mp short, rfl, rfl⟩

/-- Settles O12: in each format the operand bytes are those that the opcode counts, so the decoder takes them and leaves
the rest. -/
theorem decodeOfEncode : Obligations.DecodeOfEncode := by
  intro i rest
  cases i with
  | ldi op1 op2 => exact decode_of_lookup (tail := op1 :: op2 :: rest) lookup_ldi (by simp)
  | prn op1 => exact decode_of_lookup (tail := op1 :: rest) lookup_prn (by simp)
  | hlt => exact decode_of_lookup lookup_hlt (by simp)
  | mul op1 op2 => exact decode_of_lookup (tail := op1 :: op2 :: rest) lookup_mul (by simp)
  | add op1 op2 => exact decode_of_lookup (tail := op1 :: op2 :: rest) lookup_add (by simp)
  | push op1 => exact decode_of_lookup (tail := op1 :: rest) lookup_push (by simp)
  | pop op1 => exact decode_of_lookup (tail := op1 :: rest) lookup_pop (by simp)
  | call op1 => exact decode_of_lookup (tail := op1 :: rest) lookup_call (by simp)
  | ret => exact decode_of_lookup lookup_ret (by simp)

/-- An instruction's encoding is the byte looked up and the operand bytes that it counts (R52). -/
theorem encode_of_lookup {ir : Byte} {build : Byte → Byte → Instr} (table : lookup ir = some build) (op1 op2 : Byte) :
    encode (build op1 op2) = ir :: [op1, op2].take (operandCount ir) := by
  rcases lookup_cases table with ⟨rfl, rfl⟩ | ⟨rfl, rfl⟩ | ⟨rfl, rfl⟩ | ⟨rfl, rfl⟩ | ⟨rfl, rfl⟩ | ⟨rfl, rfl⟩ |
    ⟨rfl, rfl⟩ | ⟨rfl, rfl⟩ | ⟨rfl, rfl⟩ <;> rfl

/-- No opcode of the table counts three operands (R52). -/
theorem operandCount_le_of_lookup {ir : Byte} {build : Byte → Byte → Instr} (table : lookup ir = some build) :
    operandCount ir ≤ 2 := by
  rcases lookup_cases table with ⟨rfl, -⟩ | ⟨rfl, -⟩ | ⟨rfl, -⟩ | ⟨rfl, -⟩ | ⟨rfl, -⟩ | ⟨rfl, -⟩ | ⟨rfl, -⟩ |
    ⟨rfl, -⟩ | ⟨rfl, -⟩ <;> decide

theorem take_pair_append_drop (tail : List Byte) {n : Nat} (short : n ≤ 2) (long : n ≤ tail.length) :
    [tail.getD 0 0, tail.getD 1 0].take n ++ tail.drop n = tail := by
  match n, tail, long with
  | 0, _, _ => rfl
  | 1, _ :: _, _ => rfl
  | 2, _ :: _ :: _, _ => rfl

/-- Settles O13: the bytes that the decoder took are those that the encoder writes. -/
theorem encodeOfDecode : Obligations.EncodeOfDecode := by
  intro bytes rest i h
  obtain ⟨ir, tail, build, rfl, table, long, rfl, rfl⟩ := decode_ok_cases h
  rw [encode_of_lookup table, List.cons_append,
    take_pair_append_drop tail (operandCount_le_of_lookup table) long]

/-- Every instruction is what the table builds from its opcode (R54). -/
theorem exists_lookup_opcode (i : Instr) : ∃ build op1 op2, lookup i.opcode = some build ∧ i = build op1 op2 := by
  cases i with
  | ldi op1 op2 => exact ⟨_, op1, op2, lookup_ldi, rfl⟩
  | prn op1 => exact ⟨_, op1, 0, lookup_prn, rfl⟩
  | hlt => exact ⟨_, 0, 0, lookup_hlt, rfl⟩
  | mul op1 op2 => exact ⟨_, op1, op2, lookup_mul, rfl⟩
  | add op1 op2 => exact ⟨_, op1, op2, lookup_add, rfl⟩
  | push op1 => exact ⟨_, op1, 0, lookup_push, rfl⟩
  | pop op1 => exact ⟨_, op1, 0, lookup_pop, rfl⟩
  | call op1 => exact ⟨_, op1, 0, lookup_call, rfl⟩
  | ret => exact ⟨_, 0, 0, lookup_ret, rfl⟩

/-- The encoding begins with the opcode, which tells its length (R50, R52). -/
theorem encode_shape (i : Instr) :
    (encode i).length = operandCount i.opcode + 1 ∧ (encode i).head? = some i.opcode ∧ operandCount i.opcode ≤ 2 := by
  obtain ⟨build, op1, op2, table, e⟩ := exists_lookup_opcode i
  have short := operandCount_le_of_lookup table
  have shape : encode i = i.opcode :: [op1, op2].take (operandCount i.opcode) := by
    rw [← encode_of_lookup table, ← e]
  refine ⟨?_, by rw [shape, List.head?_cons], short⟩
  rw [shape, List.length_cons, List.length_take_of_le short]

/-- The decoder's field is a quotient (R52). -/
theorem operandCount_eq_div (ir : Byte) : operandCount ir = ir.toNat / 64 := by
  have lt := ir.isLt
  rw [operandCount, BitVec.extractLsb_toNat, Nat.shiftRight_eq_div_pow]
  omega

/-- The decoder's flag is a remainder (R53). -/
theorem setsPc_eq_decide (ir : Byte) : setsPc ir = decide (ir.toNat / 16 % 2 = 1) :=
  Nat.testBit_eq_decide_div_mod_eq

/-- The table answers for the nine opcodes alone (R54, R56). -/
theorem lookup_isSome_iff (ir : Byte) : (lookup ir).isSome = true ↔ ir ∈ nineOpcodes := by
  constructor
  · intro h
    obtain ⟨build, table⟩ := Option.isSome_iff_exists.mp h
    rcases lookup_cases table with ⟨rfl, -⟩ | ⟨rfl, -⟩ | ⟨rfl, -⟩ | ⟨rfl, -⟩ | ⟨rfl, -⟩ | ⟨rfl, -⟩ | ⟨rfl, -⟩ |
      ⟨rfl, -⟩ | ⟨rfl, -⟩ <;> decide
  · intro h
    simp only [nineOpcodes, List.mem_cons, List.not_mem_nil, or_false] at h
    rcases h with rfl | rfl | rfl | rfl | rfl | rfl | rfl | rfl | rfl <;> rfl

theorem lookup_none_iff (ir : Byte) : lookup ir = none ↔ ir ∉ nineOpcodes := by
  rw [← lookup_isSome_iff, Option.isSome_iff_ne_none, not_not]

theorem lookup_none_of_three {ir : Byte} (three : operandCount ir = 3) : lookup ir = none := by
  cases table : lookup ir with
  | none => rfl
  | some build => exact absurd (operandCount_le_of_lookup table) (by omega)

/-- Settles O10: the table answers for the nine alone, and their fields are closed facts. -/
theorem dispatcherCoversExactlyNine : Obligations.DispatcherCoversExactlyNine :=
  ⟨lookup_isSome_iff, by decide, by decide⟩

/-- Settles O11: eleven closed words, each run through the decoder. -/
theorem writtenWordsDecode : Obligations.WrittenWordsDecode := by
  unfold Obligations.WrittenWordsDecode
  decide

end Sys2Proof
end

section
/-! One step (R70, R77): where there is none, where the fetch faults, and where the fetched instruction runs. -/

namespace Sys2Proof.Machine

open Sys2Proof.Claims

variable {s : State}

/-! ### Where there is no step -/

theorem step_of_fault {r : FaultRecord} (h : s.fault = some r) : step s = .fault (.faulted r) := by
  have stopped : ¬ s.status = .running := by simp [State.status_running_iff, h]
  simp only [step, if_neg stopped, h]

theorem step_of_halted (h : s.status = .halted) : step s = .fault .halted := by
  have healthy := ((State.status_halted_iff s).mp h).1
  have stopped : ¬ s.status = .running := by rw [h]; decide
  simp only [step, if_neg stopped, healthy]

/-! ### The step of a running machine -/

theorem step_of_fetch_error {c : FaultCause} (run : s.status = .running) (h : fetch s = .error c) :
    step s = .next (s.raise c) := by
  simp only [step, if_pos run, h]

theorem step_of_fetch_ok {i : Instr} (run : s.status = .running) (h : fetch s = .ok i) : step s = exec i s := by
  simp only [step, if_pos run, h]

/-- The lookup comes before the operand fetch (R149). -/
theorem fetch_unknown (h : lookup (s.readMem s.pc) = none) :
    fetch s = .error (.unknownOpcode (s.readMem s.pc)) := by
  simp only [fetch, h]

theorem fetch_ok_of_lookup {build : Byte → Byte → Instr} (low : s.pc.toNat ≤ 0xFD)
    (h : lookup (s.readMem s.pc) = some build) :
    fetch s = .ok (build (s.readMem (s.pc + 1)) (s.readMem (s.pc + 2))) := by
  simp only [fetch_below_top s low, h]

theorem fetch_top_of_lookup {build : Byte → Byte → Instr} (top : 0xFE ≤ s.pc.toNat)
    (h : lookup (s.readMem s.pc) = some build) : fetch s = .error (.addressRange 0x100) := by
  simp only [fetch_at_top s top, h]

/-- What the fetch raises (R149). -/
theorem fetch_error_cases {c : FaultCause} (h : fetch s = .error c) :
    (lookup (s.readMem s.pc) = none ∧ c = .unknownOpcode (s.readMem s.pc)) ∨
      (0xFE ≤ s.pc.toNat ∧ c = .addressRange 0x100) := by
  cases table : lookup (s.readMem s.pc) with
  | none => exact .inl ⟨rfl, (Except.error.inj ((fetch_unknown table).symm.trans h)).symm⟩
  | some build =>
    rcases Nat.lt_or_ge s.pc.toNat 0xFE with low | top
    · cases (fetch_ok_of_lookup (Nat.le_of_lt_succ low) table).symm.trans h
    · exact .inr ⟨top, (Except.error.inj ((fetch_top_of_lookup top table).symm.trans h)).symm⟩

/-- What the fetch finds (R72, R73). -/
theorem fetch_ok_cases {i : Instr} (h : fetch s = .ok i) :
    ∃ build, s.pc.toNat ≤ 0xFD ∧ lookup (s.readMem s.pc) = some build ∧
      i = build (s.readMem (s.pc + 1)) (s.readMem (s.pc + 2)) := by
  cases table : lookup (s.readMem s.pc) with
  | none => cases (fetch_unknown table).symm.trans h
  | some build =>
    rcases Nat.lt_or_ge s.pc.toNat 0xFE with low | top
    · have low := Nat.le_of_lt_succ low
      exact ⟨build, low, rfl, (Except.ok.inj ((fetch_ok_of_lookup low table).symm.trans h)).symm⟩
    · cases (fetch_top_of_lookup top table).symm.trans h

/-- Settles O14: the length is the encoding's, and a byte that counts three operands is none of the nine. -/
theorem operandCountGivesLength : Obligations.OperandCountGivesLength := by
  refine ⟨operandCount_eq_div, encode_shape, fun bytes i rest h => ?_, fun s run three => ?_⟩
  · rw [encodeOfDecode bytes rest i h, List.length_append, (encode_shape i).1]
    omega
  · exact step_of_fetch_error run (fetch_unknown (lookup_none_of_three three))

/-- Settles O7: the decoder and the fetch read the same table at the same three bytes. -/
theorem stepExecutesDecodedInstruction : Obligations.StepExecutesDecodedInstruction := by
  intro s i rest run low h
  obtain ⟨ir, tail, build, bytes, table, -, rfl, -⟩ := decode_ok_cases h
  obtain ⟨rfl, rfl⟩ := List.cons.inj bytes
  exact step_of_fetch_ok run (fetch_ok_of_lookup low table)

/-- A placed word is read back at `pc` byte by byte, as far as memory goes. -/
theorem withFetchWord_readMem {k : Nat} (nbits w : Nat) (hk : k < 3) (room : s.pc.toNat + k ≤ 0xFF) :
    (s.withFetchWord nbits w).readMem (s.pc + BitVec.ofNat 8 k) = (tableBytes nbits w).getD k 0 := by
  have len : (tableBytes nbits w).length = 3 := rfl
  have inside : s.pc.toNat ≤ s.pc.toNat + k ∧
      s.pc.toNat + k < s.pc.toNat + ((tableBytes nbits w).take (Config.memSize - s.pc.toNat)).length := by
    rw [List.length_take, len, Config.memSize]
    omega
  rw [State.readMem, toNat_add_of_room room, State.withFetchWord, Memory.read_store, if_pos inside,
    Nat.add_sub_cancel_left, List.getD_eq_getElem?_getD, List.getElem?_take_of_lt (by rw [Config.memSize]; omega),
    ← List.getD_eq_getElem?_getD]

/-- Settles O8: the three placed bytes are the three that the machine fetches. -/
theorem placedWordIsExecuted : Obligations.PlacedWordIsExecuted := by
  intro s nbits w i run low h
  have bytes : [(s.withFetchWord nbits w).readMem s.pc, (s.withFetchWord nbits w).readMem (s.pc + 1),
      (s.withFetchWord nbits w).readMem (s.pc + 2)] = tableBytes nbits w := by
    have first := withFetchWord_readMem (s := s) (k := 0) nbits w (by omega) (by omega)
    rw [BitVec.add_zero] at first
    rw [first, show (1 : Byte) = BitVec.ofNat 8 1 from rfl, show (2 : Byte) = BitVec.ofNat 8 2 from rfl,
      withFetchWord_readMem nbits w (by omega) (by omega), withFetchWord_readMem nbits w (by omega) (by omega)]
    rfl
  unfold decodeTableWord at h
  cases decoded : decode (tableBytes nbits w) with
  | error e => simp [decoded] at h
  | ok p =>
    simp only [decoded, Option.some.injEq] at h
    obtain ⟨i', rest⟩ := p
    obtain rfl : i' = i := h
    exact stepExecutesDecodedInstruction (s.withFetchWord nbits w) i' rest run low (bytes ▸ decoded)

/-- Settles O28: the operand fetch of a table opcode fails at the last two addresses. -/
theorem topOfMemoryCannotExecute : Obligations.TopOfMemoryCannotExecute := by
  intro s run top nine
  obtain ⟨build, table⟩ := Option.isSome_iff_exists.mp ((lookup_isSome_iff _).mpr nine)
  exact step_of_fetch_error run (fetch_top_of_lookup top table)

/-- The one access of a step whose opcode is unknown (R35, R72). -/
theorem stepAccesses_unknown (run : s.status = .running) (h : lookup (s.readMem s.pc) = none) :
    stepAccesses s = [.read s.pc] := by
  simp only [stepAccesses, if_pos run, fetchAccesses, h, fetch_unknown h, List.append_nil]

/-- The nine are nine of the 256 bytes (R56), counted in four ranges of 64. -/
theorem unknown_opcodes_count :
    ((List.range 256).filter fun n => BitVec.ofNat 8 n ∉ nineOpcodes).length = 247 := by
  rw [show 256 = 64 + 64 + 64 + 64 from rfl]
  simp only [List.range_add, List.filter_append, List.length_append]
  decide

/-- Settles O9: the lookup is the first check, and the record it leaves ends the run. -/
theorem unknownOpcodeEndsTheRun : Obligations.UnknownOpcodeEndsTheRun := by
  refine ⟨fun s run unknown => ?_, unknown_opcodes_count, by decide, by decide⟩
  have table := (lookup_none_iff _).mpr unknown
  exact ⟨step_of_fetch_error run (fetch_unknown table), stepAccesses_unknown run table, step_of_fault rfl, rfl⟩

/-- Settles O4: the three conditions decide the branch of the step, and a running machine's branch always answers a
next state. -/
theorem runningStepsOthersStop : Obligations.RunningStepsOthersStop := by
  refine fun s => ⟨fun run => ?_, step_of_halted, fun r h => ⟨?_, step_of_fault h⟩⟩
  · cases fetched : fetch s with
    | error c => exact ⟨_, step_of_fetch_error run fetched⟩
    | ok i => exact ⟨_, (step_of_fetch_ok run fetched).trans (exec_eq i s)⟩
  · rw [State.status_faulted_iff, h]
    exact Option.some_ne_none r

/-- A run ends at the first step that faults, whatever its length. -/
theorem run_succ_of_fault (M : Host.Core) {s : M.State} {r : M.Fault} (h : M.step s = .fault r) (k : Nat) :
    M.run (k + 1) s = .fault r := by
  simp only [Host.Core.run, h]

/-- Settles O5: the first of the steps already stops. -/
theorem faultedMachineLeavesOnlyByReset : Obligations.FaultedMachineLeavesOnlyByReset := by
  intro s r h
  exact ⟨run_succ_of_fault core (step_of_fault h), rfl, rfl⟩

end Sys2Proof.Machine
end

section
/-! What the effect of an instruction leaves unchanged, and all that a step can do: a fault alone, of one of the causes
that a run can meet, or the effect of the fetched instruction. The whole-machine statements follow from these. -/

namespace Sys2Proof.Machine

open Sys2Proof.Claims

variable {i : Instr} {s t : State} {c : FaultCause}

/-! ### What an effect leaves unchanged -/

@[simp] theorem effect_fault (i : Instr) (s : State) : (effect i s).fault = s.fault := by
  cases i <;> rfl

theorem effect_out_of_ne (h : i.opcode ≠ opPrn) : (effect i s).out = s.out := by
  cases i with
  | prn op1 => exact absurd rfl h
  | _ => rfl

/-- PUSH and CALL write one byte, at the decremented stack pointer; no other effect writes memory (R35). -/
theorem effect_mem_cases (i : Instr) (s : State) :
    (effect i s).mem = s.mem ∨
      ((i.opcode = opPush ∨ i.opcode = opCall) ∧ ∃ v, (effect i s).mem = s.mem.write (s.reg 7 - 1).toNat v) := by
  cases i with
  | push op1 => exact .inr ⟨.inl rfl, _, rfl⟩
  | call op1 => exact .inr ⟨.inr rfl, _, rfl⟩
  | _ => exact .inl rfl

/-- PUSH and CALL have checked that the stack pointer can be decremented (R118). -/
theorem sp_ne_zero_of_store (h : i.opcode = opPush ∨ i.opcode = opCall) (passes : firstFault i s = none) :
    s.reg 7 ≠ 0 := by
  cases i with
  | push op1 => exact ((firstFault_push_none ..).mp passes).2.1
  | call op1 => exact ((firstFault_call_none ..).mp passes).2
  | _ => exact absurd h (by simp only [Instr.opcode]; decide)

/-! ### The causes a check raises -/

/-- The causes of the checks after a fetch at 0xFD or below (R142, R143). -/
def checkCause (c : FaultCause) : Prop :=
  c = .addressRange 0x100 ∨ c = .addressRange (-1) ∨ ∃ b : Byte, 8 ≤ b.toNat ∧ c = .registerRange b

theorem checkCause_of_or {x y : Option FaultCause} (hx : ∀ c, x = some c → checkCause c)
    (hy : ∀ c, y = some c → checkCause c) : ∀ c, x.or y = some c → checkCause c := by
  intro c h
  rcases Option.or_eq_some_iff.mp h with h | ⟨-, h⟩
  · exact hx c h
  · exact hy c h

theorem checkCause_of_operandFault (b : Byte) : ∀ c, operandFault b = some c → checkCause c := by
  intro c h
  obtain ⟨above, rfl⟩ := (operandFault_some b c).mp h
  exact .inr (.inr ⟨b, above, rfl⟩)

theorem checkCause_of_pushFault (sp : Byte) : ∀ c, pushFault sp = some c → checkCause c := by
  intro c h
  obtain ⟨-, rfl⟩ := (pushFault_some sp c).mp h
  exact .inr (.inl rfl)

theorem checkCause_of_popFault (sp : Byte) : ∀ c, popFault sp = some c → checkCause c := by
  intro c h
  obtain ⟨-, rfl⟩ := (popFault_some sp c).mp h
  exact .inl rfl

/-- An advance by at most three from 0xFD or below that leaves memory ends at 0x100. -/
theorem checkCause_of_advanceFault {p : Byte} {k : Nat} (low : p.toNat ≤ 0xFD) (short : k ≤ 3) :
    ∀ c, advanceFault p k = some c → checkCause c := by
  intro c h
  obtain ⟨past, rfl⟩ := (advanceFault_some p k c).mp h
  have sum : (p.toNat : Int) + k = 0x100 := by omega
  exact .inl (congrArg _ sum)

theorem checkCause_of_firstFault (low : s.pc.toNat ≤ 0xFD) : ∀ c, firstFault i s = some c → checkCause c := by
  cases i with
  | ldi op1 op2 => exact checkCause_of_or (checkCause_of_operandFault _) (checkCause_of_advanceFault low (by decide))
  | prn op1 => exact checkCause_of_or (checkCause_of_operandFault _) (checkCause_of_advanceFault low (by decide))
  | hlt => exact checkCause_of_advanceFault low (by decide)
  | mul op1 op2 =>
    exact checkCause_of_or (checkCause_of_operandFault _)
      (checkCause_of_or (checkCause_of_operandFault _) (checkCause_of_advanceFault low (by decide)))
  | add op1 op2 =>
    exact checkCause_of_or (checkCause_of_operandFault _)
      (checkCause_of_or (checkCause_of_operandFault _) (checkCause_of_advanceFault low (by decide)))
  | push op1 =>
    exact checkCause_of_or (checkCause_of_operandFault _)
      (checkCause_of_or (checkCause_of_pushFault _) (checkCause_of_advanceFault low (by decide)))
  | pop op1 =>
    exact checkCause_of_or (checkCause_of_operandFault _)
      (checkCause_of_or (checkCause_of_popFault _) (checkCause_of_advanceFault low (by decide)))
  | call op1 => exact checkCause_of_or (checkCause_of_operandFault _) (checkCause_of_pushFault _)
  | ret => exact checkCause_of_popFault _

/-! ### All that a step can do -/

/-- The first failing check of a step, the fetch's before the instruction's (R149). -/
def stepFault (s : State) : Option FaultCause :=
  match fetch s with
  | .error c => some c
  | .ok i => firstFault i s

theorem stepFault_of_fetch_error (h : fetch s = .error c) : stepFault s = some c := by
  simp only [stepFault, h]

theorem stepFault_of_fetch_ok (h : fetch s = .ok i) : stepFault s = firstFault i s := by
  simp only [stepFault, h]

theorem step_of_stepFault (run : s.status = .running) (h : stepFault s = some c) : step s = .next (s.raise c) := by
  cases fetched : fetch s with
  | error c' =>
    rw [stepFault_of_fetch_error fetched] at h
    obtain rfl := Option.some.inj h
    exact step_of_fetch_error run fetched
  | ok i =>
    rw [stepFault_of_fetch_ok fetched] at h
    exact (step_of_fetch_ok run fetched).trans (exec_of_firstFault_some h)

theorem step_of_effect (run : s.status = .running) (fetched : fetch s = .ok i) (passes : firstFault i s = none) :
    step s = .next (effect i s) :=
  (step_of_fetch_ok run fetched).trans (exec_of_firstFault_none passes)

/-- A step leaves the fault of its first failing check alone, or the effect of the fetched instruction (R70, R148). -/
theorem step_next_cases (h : step s = .next t) :
    s.status = .running ∧
      ((∃ c, stepFault s = some c ∧ t = s.raise c) ∨
        ∃ i, fetch s = .ok i ∧ firstFault i s = none ∧ t = effect i s) := by
  obtain ⟨run, ⟨c, fetched, rfl⟩ | ⟨i, fetched, executed⟩⟩ := (step_next_iff s t).mp h
  · exact ⟨run, .inl ⟨c, stepFault_of_fetch_error fetched, rfl⟩⟩
  · rcases exec_next_cases executed with ⟨c, fails, rfl⟩ | ⟨passes, rfl⟩
    · exact ⟨run, .inl ⟨c, (stepFault_of_fetch_ok fetched).trans fails, rfl⟩⟩
    · exact ⟨run, .inr ⟨i, fetched, passes, rfl⟩⟩

/-- The causes a step can raise (R141 to R143). -/
theorem stepFault_cases (h : stepFault s = some c) :
    (c = .unknownOpcode (s.readMem s.pc) ∧ lookup (s.readMem s.pc) = none) ∨ checkCause c := by
  cases fetched : fetch s with
  | error c' =>
    rw [stepFault_of_fetch_error fetched] at h
    obtain rfl := Option.some.inj h
    rcases fetch_error_cases fetched with ⟨table, rfl⟩ | ⟨-, rfl⟩
    · exact .inl ⟨rfl, table⟩
    · exact .inr (.inl rfl)
  | ok i =>
    obtain ⟨-, low, -⟩ := fetch_ok_cases fetched
    exact .inr (checkCause_of_firstFault low c ((stepFault_of_fetch_ok fetched).symm.trans h))

/-- A step that completes leaves no record. -/
theorem effect_fault_none (run : s.status = .running) : (effect i s).fault = none := by
  rw [effect_fault, ((State.status_running_iff s).mp run).1]

/-- The fetched instruction is the one that the table builds (R72). -/
theorem fetch_eq_build {build : Byte → Byte → Instr} (fetched : fetch s = .ok i)
    (table : lookup (s.readMem s.pc) = some build) : i = build (s.readMem (s.pc + 1)) (s.readMem (s.pc + 2)) := by
  obtain ⟨build', -, table', rfl⟩ := fetch_ok_cases fetched
  rw [Option.some.inj (table'.symm.trans table)]

theorem opcode_of_fetch (fetched : fetch s = .ok i) : s.readMem s.pc = i.opcode := by
  obtain ⟨build, -, table, rfl⟩ := fetch_ok_cases fetched
  exact (opcode_of_lookup table _ _).symm

/-! ### Faults -/

/-- The record that a fault leaves is one that the invariant allows (R140 to R147). -/
theorem plausible_of_stepFault (run : s.run = true) (h : stepFault s = some c) :
    FaultRecord.plausible (s.raise c) { cause := c, pcAtFault := s.pc } := by
  refine ⟨rfl, run, ?_⟩
  rcases stepFault_cases h with ⟨rfl, table⟩ | rfl | rfl | ⟨b, above, rfl⟩
  · exact ⟨rfl, table⟩
  · exact .inl rfl
  · exact .inr rfl
  · exact above

theorem effect_mem_wf (h : s.mem.wf = true) : (effect i s).mem.wf = true := by
  rcases effect_mem_cases i s with same | ⟨-, v, written⟩
  · rw [same]
    exact h
  · rw [written]
    exact Memory.wf_write _ _ v h (s.reg 7 - 1).isLt

/-- Settles O3: a fault leaves memory and a record that a run can meet; an effect leaves canonical memory and no
record. -/
theorem everyStepKeepsInvariant : Obligations.EveryStepKeepsInvariant := by
  rintro s t ⟨canonical, -⟩ h
  obtain ⟨run, ⟨c, fails, rfl⟩ | ⟨i, -, -, rfl⟩⟩ := step_next_cases h
  · refine ⟨canonical, fun r hr => ?_⟩
    obtain rfl := Option.some.inj hr
    exact plausible_of_stepFault ((State.status_running_iff s).mp run).2 fails
  · refine ⟨effect_mem_wf canonical, fun r hr => ?_⟩
    rw [effect_fault_none run] at hr
    cases hr

/-- Settles O29: an effect leaves no record, so the step was a fault's. -/
theorem faultsArePrecise : Obligations.FaultsArePrecise := by
  intro s t h faulted
  obtain ⟨run, ⟨c, -, rfl⟩ | ⟨i, -, -, rfl⟩⟩ := step_next_cases h
  · exact ⟨c, rfl, (State.status_running_iff s).mp run⟩
  · exact absurd (effect_fault_none run) faulted

/-- Settles O30: neither cause is among those that a step can raise. -/
theorem aluFaultsNeverArise : Obligations.AluFaultsNeverArise := by
  intro s t h r hr
  obtain ⟨run, ⟨c, fails, rfl⟩ | ⟨i, -, -, rfl⟩⟩ := step_next_cases h
  · obtain rfl := Option.some.inj hr
    rcases stepFault_cases fails with ⟨rfl, -⟩ | rfl | rfl | ⟨b, -, rfl⟩ <;> simp
  · rw [effect_fault_none run] at hr
    cases hr

/-! ### `RUN`, `OUT` and memory over a step -/

/-- What HLT and what every other instruction leaves in `RUN` (R17). -/
theorem effect_run_false_iff (run : s.run = true) : (effect i s).run = false ↔ i.opcode = opHlt := by
  cases i with
  | hlt => exact ⟨fun _ => rfl, fun _ => rfl⟩
  | _ => exact ⟨fun h => absurd (run.symm.trans h) (by decide), fun h => absurd h (by simp only [Instr.opcode]; decide)⟩

theorem firstFault_withRun (i : Instr) (s : State) (b : Bool) :
    firstFault i { s with run := b } = firstFault i s := by
  cases i <;> rfl

theorem effect_withRun (i : Instr) (s : State) (b : Bool) :
    { effect i { s with run := b } with run := true } = { effect i s with run := true } := by
  cases i <;> rfl

/-- Settles O35: HLT's effect alone clears `RUN`, and neither the checks nor the effects look at it. -/
theorem runningFlagDiscipline : Obligations.RunningFlagDiscipline := by
  refine ⟨rfl, fun s t h => ?_, fun i s t b h => ?_, fun s healthy stopped => ?_⟩
  · obtain ⟨run, ⟨c, -, rfl⟩ | ⟨i, fetched, -, rfl⟩⟩ := step_next_cases h
    · have running := ((State.status_running_iff s).mp run).2
      simp [running]
    · rw [opcode_of_fetch fetched, effect_run_false_iff ((State.status_running_iff s).mp run).2]
      exact (and_iff_left (effect_fault_none run)).symm
  · rcases exec_next_cases h with ⟨c, fails, rfl⟩ | ⟨passes, rfl⟩
    · exact ⟨_, exec_of_firstFault_some ((firstFault_withRun i s b).trans fails), rfl⟩
    · exact ⟨_, exec_of_firstFault_none ((firstFault_withRun i s b).trans passes), effect_withRun i s b⟩
  · exact step_of_halted ((State.status_halted_iff s).mpr ⟨healthy, stopped⟩)

theorem reg_regOf_eq_getD {b : Byte} (h : b.toNat < 8) (s : State) :
    s.reg (regOf b) = s.regs.toList.getD b.toNat 0 := by
  have inside : b.toNat < s.regs.toList.length := by rw [Vector.length_toList]; exact h
  rw [← mk_eq_regOf b h, List.getD_eq_getElem _ _ inside]
  rfl

/-- Settles O36: PRN's effect alone appends, and it appends the register that the operand byte names. -/
theorem onlyPrnEmits : Obligations.OnlyPrnEmits := by
  intro s t h
  obtain ⟨run, ⟨c, -, rfl⟩ | ⟨i, fetched, passes, rfl⟩⟩ := step_next_cases h
  · rw [if_neg (by simp), State.raise_out]
  · by_cases prn : s.readMem s.pc = opPrn
    · obtain rfl := fetch_eq_build fetched (prn ▸ lookup_prn)
      rw [if_pos ⟨prn, effect_fault_none run⟩, ← reg_regOf_eq_getD ((firstFault_prn_none ..).mp passes).1]
      rfl
    · rw [if_neg fun both => prn both.1]
      exact effect_out_of_ne fun e => prn ((opcode_of_fetch fetched).trans e)

/-- Settles O37: a fault leaves memory, and only PUSH's and CALL's effects write, one cell. -/
theorem onlyPushAndCallStore : Obligations.OnlyPushAndCallStore := by
  intro s t h a changed
  obtain ⟨run, ⟨c, -, rfl⟩ | ⟨i, fetched, passes, rfl⟩⟩ := step_next_cases h
  · exact absurd rfl changed
  · rcases effect_mem_cases i s with same | ⟨store, v, written⟩
    · rw [State.readMem, same] at changed
      exact absurd rfl changed
    · rw [opcode_of_fetch fetched]
      refine ⟨store, sp_ne_zero_of_store store passes, ?_, effect_fault_none run⟩
      by_contra other
      rw [State.readMem, written, Memory.read_write, if_neg (mt BitVec.eq_of_toNat_eq other)] at changed
      exact changed rfl

theorem fetch_withOut (s : State) (o : List Byte) : fetch { s with out := o } = fetch s := rfl

theorem firstFault_withOut (i : Instr) (s : State) (o : List Byte) :
    firstFault i { s with out := o } = firstFault i s := by
  cases i <;> rfl

theorem effect_withEarlierOut (i : Instr) (s : State) (earlier : List Byte) :
    effect i { s with out := earlier ++ s.out } = { effect i s with out := earlier ++ (effect i s).out } := by
  cases i with
  | prn op1 => simp only [effect, State.emit, State.setPc, List.append_assoc]; rfl
  | _ => rfl

/-- Settles O38: the fetch, the checks and every effect but PRN's take `OUT` as it is, and PRN's appends behind it. -/
theorem outputIsNeverReadBack : Obligations.OutputIsNeverReadBack := by
  intro s t earlier h
  obtain ⟨run, ⟨c, fails, rfl⟩ | ⟨i, fetched, passes, rfl⟩⟩ := step_next_cases h
  · have fails' : stepFault { s with out := earlier ++ s.out } = some c := by
      simp only [stepFault, fetch_withOut, firstFault_withOut]
      exact fails
    exact step_of_stepFault run fails'
  · rw [← effect_withEarlierOut]
    exact step_of_effect run fetched ((firstFault_withOut i s _).trans passes)

end Sys2Proof.Machine
end

section
/-! Frames of the single instructions, whatever they answer: a fault leaves everything but `FAULT`, and an effect has
one of three forms, a register write, a push or a pop (R90 to R126). -/

namespace Sys2Proof.Machine

open Sys2Proof.Claims

variable {i : Instr} {s t : State} {op1 op2 : Byte}

/-- All that LDI, MUL and ADD can answer. -/
theorem registerWrite_next_cases
    (h : exec (.ldi op1 op2) s = .next t ∨ exec (.mul op1 op2) s = .next t ∨ exec (.add op1 op2) s = .next t) :
    (∃ c, t = s.raise c) ∨
      (op1.toNat < 8 ∧ s.pc.toNat ≤ 0xFC ∧ ∃ v, t = (s.setReg (regOf op1) v).setPc (s.pc + 3)) := by
  rcases h with h | h | h
  · rcases exec_next_cases h with ⟨c, -, rfl⟩ | ⟨passes, rfl⟩
    · exact .inl ⟨c, rfl⟩
    · obtain ⟨h1, room⟩ := (firstFault_ldi_none ..).mp passes
      exact .inr ⟨h1, by omega, _, rfl⟩
  · rcases exec_next_cases h with ⟨c, -, rfl⟩ | ⟨passes, rfl⟩
    · exact .inl ⟨c, rfl⟩
    · obtain ⟨h1, -, room⟩ := (firstFault_mul_none ..).mp passes
      exact .inr ⟨h1, by omega, _, rfl⟩
  · rcases exec_next_cases h with ⟨c, -, rfl⟩ | ⟨passes, rfl⟩
    · exact .inl ⟨c, rfl⟩
    · obtain ⟨h1, -, room⟩ := (firstFault_add_none ..).mp passes
      exact .inr ⟨h1, by omega, _, rfl⟩

/-- Settles O31: a fault alone, or one register write and the advance. -/
theorem registerInstructionsFrame : Obligations.RegisterInstructionsFrame := by
  intro s t op1 op2 h
  rcases registerWrite_next_cases h with ⟨c, rfl⟩ | ⟨h1, low, v, rfl⟩
  · exact ⟨fun _ _ => rfl, fun _ => rfl, rfl, rfl, .inr ⟨c, rfl⟩⟩
  · obtain ⟨regs, -, cells, run, fault, out⟩ := setReg_setPc_frame h1 v low
    exact ⟨regs, cells, run, out, .inl fault⟩

/-- Settles O32: a fault alone, or an effect that writes neither a register nor memory. -/
theorem outputAndHaltFrame : Obligations.OutputAndHaltFrame := by
  refine fun s t op1 => ⟨?_, fun h => ?_, fun h => ?_⟩
  · rintro (h | h) <;> rcases exec_next_cases h with ⟨c, -, rfl⟩ | ⟨-, rfl⟩
    · exact ⟨fun _ => rfl, fun _ => rfl, .inr ⟨c, rfl⟩⟩
    · exact ⟨fun _ => rfl, fun _ => rfl, .inl rfl⟩
    · exact ⟨fun _ => rfl, fun _ => rfl, .inr ⟨c, rfl⟩⟩
    · exact ⟨fun _ => rfl, fun _ => rfl, .inl rfl⟩
  · rcases exec_next_cases h with ⟨c, -, rfl⟩ | ⟨-, rfl⟩ <;> rfl
  · rcases exec_next_cases h with ⟨c, -, rfl⟩ | ⟨-, rfl⟩ <;> rfl

/-- All that PUSH and CALL can answer. -/
theorem store_next_cases (h : exec (.push op1) s = .next t ∨ exec (.call op1) s = .next t) :
    (∃ c, t = s.raise c) ∨ (s.reg 7 ≠ 0 ∧ ∃ value p, t = (pushed value s).setPc p) := by
  rcases h with h | h
  · rcases exec_next_cases h with ⟨c, -, rfl⟩ | ⟨passes, rfl⟩
    · exact .inl ⟨c, rfl⟩
    · exact .inr ⟨((firstFault_push_none ..).mp passes).2.1, _, _, rfl⟩
  · rcases exec_next_cases h with ⟨c, -, rfl⟩ | ⟨passes, rfl⟩
    · exact .inl ⟨c, rfl⟩
    · exact .inr ⟨((firstFault_call_none ..).mp passes).2, _, _, rfl⟩

/-- Settles O33: a fault alone, or a push, whose decrement has then passed. -/
theorem storingInstructionsFrame : Obligations.StoringInstructionsFrame := by
  intro s t op1 h
  rcases store_next_cases h with ⟨c, rfl⟩ | ⟨room, value, p, rfl⟩
  · exact ⟨fun _ _ => rfl, rfl, rfl, fun _ _ _ _ => rfl, fun _ _ _ => rfl, .inr ⟨c, rfl⟩⟩
  · have decremented : decSp s = .ok (s.setReg 7 (s.reg 7 - 1)) := by rw [decSp_eq, if_neg room]
    refine ⟨fun i other => ?_, rfl, rfl, fun s1 h1 a other => ?_, fun c hc => ?_, .inl rfl⟩
    · rw [State.setPc_reg, pushed_reg, if_neg other]
    · obtain rfl := Except.ok.inj (decremented.symm.trans h1)
      rw [State.sp_eq, State.setReg_reg, if_pos rfl] at other
      rw [State.setPc_readMem, pushed_readMem, if_neg other]
    · cases decremented.symm.trans hc

/-- Settles O34: a fault alone, or writes of POP's destination, the stack pointer and `pc`. -/
theorem poppingInstructionsFrame : Obligations.PoppingInstructionsFrame := by
  refine fun s t op1 => ⟨fun h i seven named => ?_, fun h i seven => ?_, ?_⟩
  · rcases exec_next_cases h with ⟨c, -, rfl⟩ | ⟨passes, rfl⟩
    · rfl
    · have h1 := ((firstFault_pop_none ..).mp passes).1
      simp [effect, seven, mt (eq_regOf_iff h1 i).mp named]
  · rcases exec_next_cases h with ⟨c, -, rfl⟩ | ⟨-, rfl⟩
    · rfl
    · simp [effect, seven]
  · rintro (h | h) <;> rcases exec_next_cases h with ⟨c, -, rfl⟩ | ⟨-, rfl⟩
    · exact ⟨fun _ => rfl, rfl, rfl, .inr ⟨c, rfl⟩⟩
    · exact ⟨fun _ => rfl, rfl, rfl, .inl rfl⟩
    · exact ⟨fun _ => rfl, rfl, rfl, .inr ⟨c, rfl⟩⟩
    · exact ⟨fun _ => rfl, rfl, rfl, .inl rfl⟩

/-- An instruction that does not set `pc` has room for its advance where it completes, and takes it (R75). -/
theorem effect_pc_toNat (clear : setsPc i.opcode = false) (passes : firstFault i s = none) :
    (effect i s).pc.toNat = s.pc.toNat + (operandCount i.opcode + 1) := by
  cases i with
  | ldi op1 op2 =>
    rw [Instr.opcode, operandCount_ldi]
    exact toNat_add_of_room (k := 3) ((firstFault_ldi_none ..).mp passes).2
  | prn op1 =>
    rw [Instr.opcode, operandCount_prn]
    exact toNat_add_of_room (k := 2) ((firstFault_prn_none ..).mp passes).2
  | hlt => exact toNat_add_of_room (k := 1) ((firstFault_hlt_none s).mp passes)
  | mul op1 op2 =>
    rw [Instr.opcode, operandCount_mul]
    exact toNat_add_of_room (k := 3) ((firstFault_mul_none ..).mp passes).2.2
  | add op1 op2 =>
    rw [Instr.opcode, operandCount_add]
    exact toNat_add_of_room (k := 3) ((firstFault_add_none ..).mp passes).2.2
  | push op1 =>
    rw [Instr.opcode, operandCount_push]
    exact toNat_add_of_room (k := 2) ((firstFault_push_none ..).mp passes).2.2
  | pop op1 =>
    rw [Instr.opcode, operandCount_pop]
    exact toNat_add_of_room (k := 2) ((firstFault_pop_none ..).mp passes).2.2
  | call op1 => cases setsPc_call.symm.trans clear
  | ret => cases setsPc_ret.symm.trans clear

/-- The two instructions whose opcode has the sets-PC bit (R55). -/
theorem call_or_ret_of_setsPc (set : setsPc i.opcode = true) : (∃ op1, i = .call op1) ∨ i = .ret := by
  cases i with
  | call op1 => exact .inl ⟨op1, rfl⟩
  | ret => exact .inr rfl
  | _ => exact absurd set (by simp only [Instr.opcode]; decide)

/-- Settles O15: an instruction that completes without a fault has taken its effect, whose `pc` is the advance or the
handler's value. -/
theorem setsPcBitDecidesAdvance : Obligations.SetsPcBitDecidesAdvance := by
  refine ⟨setsPc_eq_decide, fun i s t _ h completes => ?_⟩
  rcases exec_next_cases h with ⟨c, -, rfl⟩ | ⟨passes, rfl⟩
  · cases completes
  · refine ⟨fun clear => effect_pc_toNat clear passes, fun set => ?_⟩
    rcases call_or_ret_of_setsPc set with ⟨op1, rfl⟩ | rfl
    · have h1 := ((firstFault_call_none ..).mp passes).1
      exact .inl ⟨op1, h1, rfl, congrArg (effect (.call op1) s).reg (mk_eq_regOf op1 h1).symm⟩
    · exact .inr ⟨rfl, rfl⟩

/-! ### The ALU as a unit -/

theorem alu_of_result {f : AluOp} {a b : RegIdx} {v : Byte} (h : aluResult f (s.reg a) (s.reg b) = .ok v) :
    alu f a b s = .ok (s.setReg a v) := by
  rw [alu, h, ok_bind, pure_ok]

/-- The four operations on numbers (R101 to R104). -/
def aluNumber : AluOp → Nat → Nat → Nat
  | .add, u, v => (u + v) % 256
  | .sub, u, v => (u + 256 - v) % 256
  | .mul, u, v => u * v % 256
  | .div, u, v => u / v

theorem aluResult_toNat (f : AluOp) (u v : Byte) (divisor : f = .div → v ≠ 0) :
    ∃ w, aluResult f u v = .ok w ∧ w.toNat = aluNumber f u.toNat v.toNat := by
  have hu := u.isLt
  have hv := v.isLt
  cases f with
  | add => exact ⟨_, rfl, BitVec.toNat_ofNat ..⟩
  | mul => exact ⟨_, rfl, BitVec.toNat_ofNat ..⟩
  | sub =>
    refine ⟨_, rfl, ?_⟩
    rw [BitVec.toNat_ofInt, aluNumber]
    omega
  | div =>
    have nonzero : v.toNat ≠ 0 := fun e => divisor rfl (BitVec.eq_of_toNat_eq e)
    refine ⟨_, if_neg nonzero, ?_⟩
    rw [BitVec.toNat_ofNat]
    exact Nat.mod_eq_of_lt (Nat.lt_of_le_of_lt (Nat.div_le_self _ _) hu)

/-- Settles O42: the result is the operation's number, written to one register. -/
theorem aluUnitComputes : Obligations.AluUnitComputes := by
  refine fun f a b s => ⟨fun div zero => ?_, fun divisor => ?_⟩
  · subst div
    rw [alu, aluResult, zero]
    rfl
  · obtain ⟨w, result, value⟩ := aluResult_toNat f (s.reg a) (s.reg b) divisor
    refine ⟨_, alu_of_result result, ?_, fun i other => ?_, rfl, fun _ => rfl, rfl, rfl, rfl⟩
    · rw [State.setReg_reg, if_pos rfl, value]
      cases f <;> rfl
    · rw [State.setReg_reg, if_neg other]

end Sys2Proof.Machine
end

section
/-! Reset and the host's view of the state (R21, R18, R22, R140, R179). -/

namespace Sys2Proof.Machine

open Sys2Proof.Claims

/-- Settles O1: the construction state, field by field. -/
theorem resetLeavesConstructionState : Obligations.ResetLeavesConstructionState :=
  ⟨rfl, by decide, rfl, fun _ => rfl, rfl, rfl, rfl, rfl, fun _ => rfl⟩

/-- Settles O2: no cell is listed and there is no record. -/
theorem resetMeetsInvariant : Obligations.ResetMeetsInvariant :=
  ⟨Memory.wf_nil, fun _ h => nomatch h⟩

/-- Settles O46: HLT is fetched from address 0 and passes its one check. -/
theorem hltFirstChangesNothingElse : Obligations.HltFirstChangesNothingElse := by
  intro m first
  have low : State.reset.pc.toNat ≤ 0xFD := by decide
  have room : State.reset.pc.toNat + 1 ≤ 0xFF := by decide
  have table : lookup (m.read 0) = some fun _ _ => .hlt := by rw [first]; exact lookup_hlt
  have fetched := fetch_ok_of_lookup (s := { State.reset with mem := m }) low table
  exact step_of_effect rfl fetched ((firstFault_hlt_none _).mpr room)

theorem exitCode_none_iff (s : State) : s.exitCode = none ↔ s.status = .running := by
  unfold State.exitCode
  cases s.status <;> simp

theorem exitCode_zero_iff (s : State) : s.exitCode = some 0 ↔ s.status = .halted := by
  unfold State.exitCode
  cases s.status <;> simp

theorem exitCode_one_iff (s : State) : s.exitCode = some 1 ↔ s.status = .faulted := by
  unfold State.exitCode
  cases s.status <;> simp

/-- A byte as the nine bits of `fault_info` (R142, R143). -/
theorem ofInt_nine_toNat (b : Byte) : BitVec.ofInt 9 (b.toNat : Int) = b.setWidth 9 := by
  rw [BitVec.ofInt_natCast, BitVec.ofNat_toNat]

/-- The fault signals while a record stands (R22). -/
theorem statusPort_of_fault {s : State} {r : FaultRecord} (h : s.fault = some r) :
    s.statusPort = { running := false, halted := false, faulted := true, faultCause := some r.cause.code,
                     faultPc := some r.pcAtFault, faultInfo := r.cause.info.map (BitVec.ofInt 9) } := by
  have faulted : s.status = .faulted := (State.status_faulted_iff s).mpr (h ▸ Option.some_ne_none r)
  simp [State.statusPort, faulted, h]

/-- Settles O49: the signals are the condition's, and the record's code and `info` are its cause's. -/
theorem hostReadsStatusAndRecord : Obligations.HostReadsStatusAndRecord := by
  intro s
  refine ⟨State.status_running_iff s, State.status_halted_iff s, State.status_faulted_iff s, decide_eq_true_iff,
    decide_eq_true_iff, decide_eq_true_iff, exitCode_none_iff s,
    (exitCode_zero_iff s).trans (State.status_halted_iff s), (exitCode_one_iff s).trans (State.status_faulted_iff s),
    fun healthy => ?_, fun r h => ?_⟩
  · simp [State.statusPort, healthy]
  · rw [statusPort_of_fault h]
    refine ⟨rfl, rfl, rfl, rfl, fun b hc => ?_, fun hc => ?_, fun hc => ?_, fun b hc => ?_, fun hc => ?_, fun hc => ?_⟩
    · rw [hc]
      exact ⟨rfl, congrArg some (ofInt_nine_toNat b)⟩
    · rw [hc]
      exact ⟨rfl, rfl⟩
    · rw [hc]
      exact ⟨rfl, rfl⟩
    · rw [hc]
      exact ⟨rfl, congrArg some (ofInt_nine_toNat b)⟩
    · rw [hc]
      exact ⟨rfl, rfl⟩
    · rw [hc]
      exact ⟨rfl, rfl⟩

end Sys2Proof.Machine
end

section
/-! The memory accesses of a step (R35, R36): their order, and that a step depends on no cell but those it reads. -/

namespace Sys2Proof.Machine

open Sys2Proof.Claims

variable {i : Instr} {s t : State}

/-! ### The accesses of a fetch and of an instruction -/

/-- The three fetch reads below the top of memory (R35, R73). -/
theorem fetchAccesses_low {build : Byte → Byte → Instr} (low : s.pc.toNat ≤ 0xFD)
    (table : lookup (s.readMem s.pc) = some build) :
    fetchAccesses s = [.read s.pc, .read (s.pc + 1), .read (s.pc + 2)] := by
  have h1 := checkAddr_add s.pc 1
  have h2 := checkAddr_add s.pc 2
  rw [if_pos (by omega)] at h1 h2
  simp only [Nat.cast_one, Nat.cast_ofNat] at h1 h2
  simp only [fetchAccesses, table, h1, h2]
  rfl

/-- A fetch writes nothing. -/
theorem write_notMem_fetchAccesses (s : State) (a v : Byte) : Access.write a v ∉ fetchAccesses s := by
  unfold fetchAccesses
  cases lookup (s.readMem s.pc) with
  | none => simp
  | some build =>
    cases checkAddr ((s.pc.toNat : Int) + 1) with
    | error c => simp
    | ok a1 => cases checkAddr ((s.pc.toNat : Int) + 2) <;> simp

theorem pushAccesses_of_room (value : State → Byte) (room : s.reg 7 ≠ 0) :
    pushAccesses value s = [.write (s.reg 7 - 1) (value (s.setReg 7 (s.reg 7 - 1)))] := by
  have decremented : decSp s = .ok (s.setReg 7 (s.reg 7 - 1)) := by rw [decSp_eq, if_neg room]
  simp only [pushAccesses, decremented, State.sp_eq, State.setReg_reg, if_true]

theorem pushAccesses_of_empty (value : State → Byte) (empty : s.reg 7 = 0) : pushAccesses value s = [] := by
  have underflow : decSp s = .error (.addressRange (-1)) := by rw [decSp_eq, if_pos empty]
  simp only [pushAccesses, underflow]

theorem dataAccesses_push {op1 : Byte} (h : op1.toNat < 8) :
    dataAccesses (.push op1) s = pushAccesses (fun t => t.reg (regOf op1)) s := by
  simp only [dataAccesses, checkReg_ok op1 h, mk_eq_regOf]

theorem dataAccesses_call {op1 : Byte} (h : op1.toNat < 8) :
    dataAccesses (.call op1) s = pushAccesses returnAddress s := by
  simp only [dataAccesses, checkReg_ok op1 h]

theorem dataAccesses_pop {op1 : Byte} (h : op1.toNat < 8) : dataAccesses (.pop op1) s = [.read (s.reg 7)] := by
  simp only [dataAccesses, checkReg_ok op1 h, State.sp_eq]

/-- A push writes the byte that then stands in the cell. -/
theorem pushAccesses_eq_readMem (value : State → Byte) (p : Byte) (room : s.reg 7 ≠ 0) :
    pushAccesses value s = [.write (s.reg 7 - 1) (((pushed value s).setPc p).readMem (s.reg 7 - 1))] := by
  rw [pushAccesses_of_room value room, State.setPc_readMem, pushed_readMem, if_pos rfl]

/-- The one data access of an instruction that completes (R35), in the words of the statement. -/
theorem dataAccesses_of_passes (passes : firstFault i s = none) :
    dataAccesses i s =
      if i.opcode = 0x45 ∨ i.opcode = 0x50 then
        [.write (s.reg 7 - 1) ((effect i s).readMem (s.reg 7 - 1))]
      else if i.opcode = 0x46 ∨ i.opcode = 0x11 then [.read (s.reg 7)] else [] := by
  cases i with
  | push op1 =>
    obtain ⟨h, room, -⟩ := (firstFault_push_none ..).mp passes
    exact (dataAccesses_push h).trans (pushAccesses_eq_readMem _ _ room)
  | call op1 =>
    obtain ⟨h, room⟩ := (firstFault_call_none ..).mp passes
    exact (dataAccesses_call h).trans (pushAccesses_eq_readMem _ _ room)
  | pop op1 => exact dataAccesses_pop ((firstFault_pop_none ..).mp passes).1
  | _ => rfl

/-- Only an instruction whose checks all pass writes: the checks before the write are all of CALL's, and PUSH's advance
cannot fail at 0xFD or below (R149). -/
theorem firstFault_none_of_write {a v : Byte} (low : s.pc.toNat ≤ 0xFD) (h : Access.write a v ∈ dataAccesses i s) :
    firstFault i s = none := by
  cases i with
  | push op1 =>
    rcases checkReg_cases op1 with ⟨h1, -⟩ | ⟨-, e⟩
    · by_cases room : s.reg 7 = 0
      · simp [dataAccesses_push h1, pushAccesses_of_empty _ room] at h
      · exact (firstFault_push_none ..).mpr ⟨h1, room, by omega⟩
    · simp [dataAccesses, e] at h
  | call op1 =>
    rcases checkReg_cases op1 with ⟨h1, -⟩ | ⟨-, e⟩
    · by_cases room : s.reg 7 = 0
      · simp [dataAccesses_call h1, pushAccesses_of_empty _ room] at h
      · exact (firstFault_call_none ..).mpr ⟨h1, room⟩
    · simp [dataAccesses, e] at h
  | pop op1 =>
    rcases checkReg_cases op1 with ⟨h1, -⟩ | ⟨-, e⟩
    · simp [dataAccesses_pop h1] at h
    · simp [dataAccesses, e] at h
  | _ => simp [dataAccesses] at h

/-! ### The accesses of a step -/

theorem stepAccesses_of_fetch_error {c : FaultCause} (run : s.status = .running) (fetched : fetch s = .error c) :
    stepAccesses s = fetchAccesses s := by
  simp only [stepAccesses, if_pos run, fetched, List.append_nil]

theorem stepAccesses_of_fetch_ok (run : s.status = .running) (fetched : fetch s = .ok i) :
    stepAccesses s = fetchAccesses s ++ dataAccesses i s := by
  simp only [stepAccesses, if_pos run, fetched]

theorem write_notMem_stepAccesses {c : FaultCause} (run : s.status = .running) (fails : stepFault s = some c)
    (a v : Byte) : Access.write a v ∉ stepAccesses s := by
  cases fetched : fetch s with
  | error c' =>
    rw [stepAccesses_of_fetch_error run fetched]
    exact write_notMem_fetchAccesses s a v
  | ok i =>
    obtain ⟨-, low, -⟩ := fetch_ok_cases fetched
    rw [stepFault_of_fetch_ok fetched] at fails
    rw [stepAccesses_of_fetch_ok run fetched, List.mem_append, not_or]
    refine ⟨write_notMem_fetchAccesses s a v, fun h => ?_⟩
    cases (firstFault_none_of_write low h).symm.trans fails

/-- Settles O39: a step that completes makes the fetch reads and its instruction's data access; one that faults has no
write among its accesses. -/
theorem accessesFollowTheOrder : Obligations.AccessesFollowTheOrder := by
  intro s t h
  obtain ⟨run, ⟨c, fails, rfl⟩ | ⟨i, fetched, passes, rfl⟩⟩ := step_next_cases h
  · exact ⟨fun completes => (nomatch completes), fun _ => write_notMem_stepAccesses run fails⟩
  · refine ⟨fun _ => ?_, fun faulted => absurd (effect_fault_none run) faulted⟩
    obtain ⟨build, low, table, -⟩ := fetch_ok_cases fetched
    rw [stepAccesses_of_fetch_ok run fetched, fetchAccesses_low low table, dataAccesses_of_passes passes,
      opcode_of_fetch fetched]

/-! ### What a step depends on -/

/-- `s` with another memory. -/
def State.withMem (s : State) (m : Memory) : State := { s with mem := m }

/-- A memory reads as the state's on every cell that the accesses read. -/
def AgreesOn (m : Memory) (s : State) (accesses : List Access) : Prop :=
  ∀ a, Access.read a ∈ accesses → m.read a.toNat = s.readMem a

variable {m : Memory}

/-- The fetch depends on the cells it reads (R35, R73). -/
theorem fetch_withMem (agrees : AgreesOn m s (fetchAccesses s)) :
    fetch (s.withMem m) = fetch s ∧ fetchAccesses (s.withMem m) = fetchAccesses s := by
  have opcode : (s.withMem m).readMem s.pc = s.readMem s.pc := agrees _ List.mem_cons_self
  have accesses : fetchAccesses (s.withMem m) = fetchAccesses s := by
    unfold fetchAccesses
    rw [show (s.withMem m).pc = s.pc from rfl, opcode]
  refine ⟨?_, accesses⟩
  cases table : lookup (s.readMem s.pc) with
  | none =>
    rw [fetch_unknown table, fetch_unknown (s := s.withMem m) ((congrArg lookup opcode).trans table)]
    exact congrArg _ (congrArg _ opcode)
  | some build =>
    have table' : lookup ((s.withMem m).readMem (s.withMem m).pc) = some build := (congrArg lookup opcode).trans table
    rcases Nat.lt_or_ge s.pc.toNat 0xFE with low | top
    · have low := Nat.le_of_lt_succ low
      rw [fetchAccesses_low low table] at agrees
      have op1 : (s.withMem m).readMem (s.pc + 1) = s.readMem (s.pc + 1) := agrees _ (by simp)
      have op2 : (s.withMem m).readMem (s.pc + 2) = s.readMem (s.pc + 2) := agrees _ (by simp)
      rw [fetch_ok_of_lookup low table, fetch_ok_of_lookup (s := s.withMem m) low table']
      exact congrArg _ (congrArg₂ build op1 op2)
    · rw [fetch_top_of_lookup top table, fetch_top_of_lookup (s := s.withMem m) top table']

/-- The write of a push is told from registers and `pc` where its value is. -/
theorem pushAccesses_withMem {value : State → Byte}
    (same : ∀ v, value ((s.withMem m).setReg 7 v) = value (s.setReg 7 v)) :
    pushAccesses value (s.withMem m) = pushAccesses value s := by
  by_cases room : s.reg 7 = 0
  · rw [pushAccesses_of_empty value room, pushAccesses_of_empty (s := s.withMem m) value room]
  · rw [pushAccesses_of_room value room, pushAccesses_of_room (s := s.withMem m) value room, same]
    rfl

/-- The accesses of an instruction are told from registers and `pc` alone. -/
theorem dataAccesses_withMem (i : Instr) (s : State) (m : Memory) :
    dataAccesses i (s.withMem m) = dataAccesses i s := by
  cases i with
  | push op1 =>
    rcases checkReg_cases op1 with ⟨h, -⟩ | ⟨-, e⟩
    · rw [dataAccesses_push h, dataAccesses_push h, pushAccesses_withMem (s := s) (m := m) fun _ => rfl]
    · simp only [dataAccesses, e]
  | call op1 =>
    rcases checkReg_cases op1 with ⟨h, -⟩ | ⟨-, e⟩
    · rw [dataAccesses_call h, dataAccesses_call h, pushAccesses_withMem (s := s) (m := m) fun _ => rfl]
    · simp only [dataAccesses, e]
  | _ => rfl

theorem loaded_sp_withMem {op1 : Byte} (top : (s.withMem m).readMem (s.reg 7) = s.readMem (s.reg 7)) :
    (loaded op1 (s.withMem m)).reg 7 = (loaded op1 s).reg 7 := by
  rw [loaded_reg, loaded_reg]
  exact congrArg (fun v => if 7 = regOf op1 then v else s.reg 7) top

/-- POP alone checks a byte of memory, and it has read it (R117). -/
theorem firstFault_withMem (agrees : AgreesOn m s (dataAccesses i s)) :
    firstFault i (s.withMem m) = firstFault i s := by
  cases i with
  | pop op1 =>
    by_cases h : op1.toNat < 8
    · rw [dataAccesses_pop h] at agrees
      simp only [firstFault, loaded_sp_withMem (agrees _ List.mem_cons_self)]
      rfl
    · have bad : operandFault op1 = some (.registerRange op1) := if_pos (Nat.not_lt.mp h)
      simp only [firstFault, bad, Option.some_or]
  | _ => rfl

/-- POP and RET alone use a byte of memory, the one on top of the stack (R117, R126). -/
theorem effect_withMem (agrees : AgreesOn m s (dataAccesses i s)) (passes : firstFault i s = none) :
    (effect i (s.withMem m)).withMem [] = (effect i s).withMem [] := by
  cases i with
  | pop op1 =>
    rw [dataAccesses_pop ((firstFault_pop_none ..).mp passes).1] at agrees
    have top : (s.withMem m).readMem (s.reg 7) = s.readMem (s.reg 7) := agrees _ List.mem_cons_self
    simp only [effect, loaded_sp_withMem top]
    simp only [loaded]
    rw [show (s.withMem m).readMem ((s.withMem m).reg 7) = s.readMem (s.reg 7) from top]
    rfl
  | ret =>
    have top : (s.withMem m).readMem (s.reg 7) = s.readMem (s.reg 7) := agrees _ List.mem_cons_self
    rw [effect, show (s.withMem m).readMem ((s.withMem m).reg 7) = s.readMem (s.reg 7) from top]
    rfl
  | _ => rfl

/-- Settles O40: the fetch reads decide the fetched instruction, and the data read decides its checks and its effect. -/
theorem stepDependsOnlyOnCellsItReads : Obligations.StepDependsOnlyOnCellsItReads := by
  intro s t m agrees h
  have run := ((step_next_iff s t).mp h).1
  have run' : (s.withMem m).status = .running := run
  cases fetched : fetch s with
  | error c =>
    have accesses := stepAccesses_of_fetch_error run fetched
    obtain ⟨same, reads⟩ := fetch_withMem (m := m) (accesses ▸ agrees)
    have fetched' := same.trans fetched
    rw [step_of_fetch_error run fetched] at h
    obtain rfl := Host.Outcome.next.inj h
    exact ⟨(stepAccesses_of_fetch_error run' fetched').trans (reads.trans accesses.symm), _,
      step_of_fetch_error run' fetched', rfl⟩
  | ok i =>
    have accesses := stepAccesses_of_fetch_ok run fetched
    rw [accesses] at agrees
    obtain ⟨same, reads⟩ := fetch_withMem fun a ha => agrees a (List.mem_append_left _ ha)
    have dataAgrees : AgreesOn m s (dataAccesses i s) := fun a ha => agrees a (List.mem_append_right _ ha)
    have fetched' := same.trans fetched
    have accesses' : stepAccesses (s.withMem m) = stepAccesses s := by
      rw [stepAccesses_of_fetch_ok run' fetched', reads, dataAccesses_withMem, accesses]
    have checks := firstFault_withMem dataAgrees
    rw [step_of_fetch_ok run fetched] at h
    refine ⟨accesses', ?_⟩
    rcases exec_next_cases h with ⟨c, fails, rfl⟩ | ⟨passes, rfl⟩
    · exact ⟨_, (step_of_fetch_ok run' fetched').trans (exec_of_firstFault_some (checks.trans fails)), rfl⟩
    · exact ⟨_, step_of_effect run' fetched' (checks.trans passes), effect_withMem dataAgrees passes⟩

end Sys2Proof.Machine
end

section
/-! The step against the summary table of 40_execution_cycle.md section 6, row by row: the table's flat list of checks
and effects over numbers is the first failing check and the effect of the row's instruction. -/

namespace Sys2Proof.Machine

open Sys2Proof.Claims

variable {s t : State} {op1 op2 : Byte}

/-! ### The checks as the table writes them -/

theorem settle_or (s t : State) (x y : Option FaultCause) : settle s (x.or y) t = settle s x (settle s y t) := by
  cases x <;> rfl

theorem settle_if (s t : State) (p : Prop) [Decidable p] (c : FaultCause) :
    settle s (if p then some c else none) t = if p then faultedFrom s c else t := by
  by_cases h : p
  · rw [if_pos h, if_pos h]
    rfl
  · rw [if_neg h, if_neg h]
    rfl

theorem settle_operandFault (s t : State) (b : Byte) :
    settle s (operandFault b) t = if 7 < b.toNat then faultedFrom s (.registerRange b) else t :=
  settle_if ..

theorem settle_pushFault (s t : State) (sp : Byte) :
    settle s (pushFault sp) t = if sp.toNat = 0 then faultedFrom s (.addressRange (-1)) else t := by
  rw [pushFault, settle_if]
  exact if_congr (BitVec.toNat_inj (y := 0)).symm rfl rfl

theorem settle_popFault (s t : State) (sp : Byte) :
    settle s (popFault sp) t = if sp.toNat = 0xFF then faultedFrom s (.addressRange 0x100) else t := by
  rw [popFault, settle_if]
  exact if_congr (BitVec.toNat_inj (y := 0xFF)).symm rfl rfl

/-- The advance by three can fail at 0xFD alone, and then names 0x100. -/
theorem settle_advanceFault_three (low : s.pc.toNat ≤ 0xFD) (t : State) :
    settle s (advanceFault s.pc 3) t =
      if 0xFF < s.pc.toNat + 3 then faultedFrom s (.addressRange 0x100) else t := by
  rw [advanceFault, settle_if]
  refine ite_congr rfl (fun past => ?_) fun _ => rfl
  have sum : (s.pc.toNat : Int) + (3 : Nat) = 0x100 := by omega
  rw [sum]

/-- A shorter advance cannot fail after the operand fetch. -/
theorem settle_advanceFault_short {k : Nat} (low : s.pc.toNat ≤ 0xFD) (short : k ≤ 2) (t : State) :
    settle s (advanceFault s.pc k) t = t := by
  rw [(advanceFault_none _ _).mpr (by omega)]
  rfl

/-! ### The effects as the table writes them -/

theorem ofNat_toNat_byte (v : Byte) : BitVec.ofNat 8 v.toNat = v := by rw [BitVec.ofNat_toNat, BitVec.setWidth_eq]

theorem ofNat_mod_byte (n : Nat) : BitVec.ofNat 8 (n % 256) = BitVec.ofNat 8 n := by
  apply BitVec.eq_of_toNat_eq
  rw [BitVec.toNat_ofNat, BitVec.toNat_ofNat]
  exact Nat.mod_mod n 256

theorem ofNat_toNat_sub_one {sp : Byte} (room : sp.toNat ≠ 0) : BitVec.ofNat 8 (sp.toNat - 1) = sp - 1 := by
  rw [← toNat_sub_one (Nat.pos_of_ne_zero room), ofNat_toNat_byte]

theorem lt_eight {b : Byte} (good : ¬ 7 < b.toNat) : b.toNat < 8 := Nat.lt_succ_of_le (Nat.le_of_not_lt good)

theorem xval_eq (h : op1.toNat < 8) (s : State) : xval s op1 = (s.reg (regOf op1)).toNat := by
  rw [xval, reg_regOf_eq_getD h]

theorem setIfInBounds_eq_setReg (h : op1.toNat < 8) (s : State) (v : Byte) :
    s.regs.setIfInBounds op1.toNat v = (s.setReg (regOf op1) v).regs := by
  rw [← mk_eq_regOf op1 h]
  refine Vector.ext fun k hk => ?_
  rw [Vector.getElem_setIfInBounds]
  exact (Vector.getElem_set h hk).symm

theorem setX_eq (h : op1.toNat < 8) (s : State) (v p : Nat) :
    setX s op1 v p = (s.setReg (regOf op1) (BitVec.ofNat 8 v)).setPc (BitVec.ofNat 8 p) := by
  rw [setX, setIfInBounds_eq_setReg h]
  rfl

theorem setX_seven (s : State) (v p : Nat) :
    setX s 7 v p = (s.setReg 7 (BitVec.ofNat 8 v)).setPc (BitVec.ofNat 8 p) :=
  setX_eq (op1 := 7) (by decide) s v p

/-- The table's push, with the value it stores. -/
theorem table_push_eq (room : (s.reg 7).toNat ≠ 0) {value : State → Byte} {v : Nat} (p : Byte)
    (stored : BitVec.ofNat 8 v = value (s.setReg 7 (s.reg 7 - 1))) :
    { s with regs := s.regs.setIfInBounds 7 (BitVec.ofNat 8 ((s.reg 7).toNat - 1)),
             mem := s.mem.write ((s.reg 7).toNat - 1) (BitVec.ofNat 8 v), pc := p } =
      (pushed value s).setPc p := by
  rw [stored, ofNat_toNat_sub_one room, ← toNat_sub_one (Nat.pos_of_ne_zero room),
    show s.regs.setIfInBounds 7 (s.reg 7 - 1) = (s.setReg 7 (s.reg 7 - 1)).regs from
      setIfInBounds_eq_setReg (op1 := 7) (by decide) s _]
  rfl

/-- The register that PUSH stores and CALL jumps to, read after the decrement (D23). -/
theorem table_operand_eq (h : op1.toNat < 8) (room : (s.reg 7).toNat ≠ 0) :
    BitVec.ofNat 8 (if op1 = 7 then (s.reg 7).toNat - 1 else xval s op1) =
      (s.setReg 7 (s.reg 7 - 1)).reg (regOf op1) := by
  rw [State.setReg_reg]
  by_cases seven : op1 = 7
  · rw [if_pos seven, if_pos ((regOf_eq_seven_iff h).mpr seven), ofNat_toNat_sub_one room]
  · rw [if_neg seven, if_neg (mt (regOf_eq_seven_iff h).mp seven), xval_eq h, ofNat_toNat_byte]

/-- The table's two rows of POP are one effect (D23). -/
theorem table_pop_eq (h : op1.toNat < 8) :
    (if op1 = 7 then setX s 7 ((s.readMem (s.reg 7)).toNat + 1) (s.pc.toNat + 2)
      else setX (setX s op1 (s.readMem (s.reg 7)).toNat s.pc.toNat) 7 ((s.reg 7).toNat + 1) (s.pc.toNat + 2)) =
      effect (.pop op1) s := by
  by_cases seven : op1 = 7
  · subst seven
    rw [if_pos rfl, setX_seven, addr_add, addr_add]
    refine State.ext_fields _ _ (fun j => ?_) rfl rfl rfl rfl rfl
    simp only [effect, State.setPc_reg, State.setReg_reg, loaded_sp h, loaded_reg,
      show regOf 7 = 7 from rfl]
    split <;> rfl
  · have sp : (loaded op1 s).reg 7 = s.reg 7 := by rw [loaded_sp h, if_neg seven]
    rw [if_neg seven, setX_seven, setX_eq h, addr_add, addr_add, ofNat_toNat_byte, effect, sp]
    rfl

/-- The checks and the register write that the rows of MUL and ADD share, with the number `n` that the row computes
(D1). -/
theorem table_alu_eq (low : s.pc.toNat ≤ 0xFD) {n result : Nat}
    (same : op1.toNat < 8 → op2.toNat < 8 → n = result) :
    (if 7 < op1.toNat then faultedFrom s (.registerRange op1)
      else if 7 < op2.toNat then faultedFrom s (.registerRange op2)
      else if 0xFF < s.pc.toNat + 3 then faultedFrom s (.addressRange 0x100)
      else setX s op1 (n % 256) (s.pc.toNat + 3)) =
      settle s ((operandFault op1).or ((operandFault op2).or (advanceFault s.pc 3)))
        ((s.setReg (regOf op1) (BitVec.ofNat 8 result)).setPc (s.pc + 3)) := by
  rw [settle_or, settle_or, settle_operandFault, settle_operandFault, settle_advanceFault_three low]
  refine ite_congr rfl (fun _ => rfl) fun good1 => ite_congr rfl (fun _ => rfl) fun good2 =>
    ite_congr rfl (fun _ => rfl) fun _ => ?_
  rw [setX_eq (lt_eight good1), ofNat_mod_byte, same (lt_eight good1) (lt_eight good2), addr_add]
  rfl

/-! ### The rows -/

section

variable (low : s.pc.toNat ≤ 0xFD) (first : s.readMem (s.pc + 1) = op1) (second : s.readMem (s.pc + 2) = op2)

include low

theorem operand_fetch_passes : ¬ 0xFF < s.pc.toNat + 1 ∧ ¬ 0xFF < s.pc.toNat + 2 := by omega

include first

theorem summaryStep_prn (ir : s.readMem s.pc = 0x47) :
    summaryStep s = settle s (firstFault (.prn op1) s) (effect (.prn op1) s) := by
  obtain ⟨room1, room2⟩ := operand_fetch_passes low
  simp +decide only [summaryStep, ir, first, room1, room2, true_and, false_and, if_true, if_false]
  rw [firstFault, settle_or, settle_operandFault, settle_advanceFault_short low (by decide)]
  refine ite_congr rfl (fun _ => rfl) fun good => ?_
  rw [xval_eq (lt_eight good), ofNat_toNat_byte, addr_add]
  rfl

theorem summaryStep_push (ir : s.readMem s.pc = 0x45) :
    summaryStep s = settle s (firstFault (.push op1) s) (effect (.push op1) s) := by
  obtain ⟨room1, room2⟩ := operand_fetch_passes low
  simp +decide only [summaryStep, ir, first, room1, room2, true_and, false_and, if_true, if_false]
  rw [firstFault, settle_or, settle_or, settle_operandFault, settle_pushFault,
    settle_advanceFault_short low (by decide)]
  refine ite_congr rfl (fun _ => rfl) fun good => ite_congr rfl (fun _ => rfl) fun room => ?_
  rw [addr_add]
  exact table_push_eq room _ (table_operand_eq (lt_eight good) room)

theorem summaryStep_pop (ir : s.readMem s.pc = 0x46) :
    summaryStep s = settle s (firstFault (.pop op1) s) (effect (.pop op1) s) := by
  obtain ⟨room1, room2⟩ := operand_fetch_passes low
  simp +decide only [summaryStep, ir, first, room1, room2, true_and, false_and, if_true, if_false]
  rw [firstFault, settle_or, settle_or, settle_operandFault, settle_popFault,
    settle_advanceFault_short low (by decide)]
  refine ite_congr rfl (fun _ => rfl) fun good => ?_
  rw [loaded_sp (lt_eight good), apply_ite BitVec.toNat, table_pop_eq (lt_eight good)]

theorem summaryStep_call (ir : s.readMem s.pc = 0x50) :
    summaryStep s = settle s (firstFault (.call op1) s) (effect (.call op1) s) := by
  obtain ⟨room1, room2⟩ := operand_fetch_passes low
  simp +decide only [summaryStep, ir, first, room1, room2, true_and, false_and, if_true, if_false]
  rw [firstFault, settle_or, settle_operandFault, settle_pushFault]
  refine ite_congr rfl (fun _ => rfl) fun good => ite_congr rfl (fun _ => rfl) fun room => ?_
  rw [table_operand_eq (lt_eight good) room]
  exact table_push_eq room _ (addr_add s.pc 2)

include second

theorem summaryStep_ldi (ir : s.readMem s.pc = 0x82) :
    summaryStep s = settle s (firstFault (.ldi op1 op2) s) (effect (.ldi op1 op2) s) := by
  obtain ⟨room1, room2⟩ := operand_fetch_passes low
  simp +decide only [summaryStep, ir, first, second, room1, room2, true_and, false_and, if_true, if_false]
  rw [firstFault, settle_or, settle_operandFault, settle_advanceFault_three low]
  refine ite_congr rfl (fun _ => rfl) fun good => ite_congr rfl (fun _ => rfl) fun _ => ?_
  rw [setX_eq (lt_eight good), ofNat_toNat_byte, addr_add]
  rfl

theorem summaryStep_mul (ir : s.readMem s.pc = 0xA2) :
    summaryStep s = settle s (firstFault (.mul op1 op2) s) (effect (.mul op1 op2) s) := by
  obtain ⟨room1, room2⟩ := operand_fetch_passes low
  simp +decide only [summaryStep, ir, first, second, room1, room2, true_and, false_and, if_true, if_false]
  exact table_alu_eq low fun h1 h2 => by rw [xval_eq h1, xval_eq h2]

theorem summaryStep_add (ir : s.readMem s.pc = 0xA0) :
    summaryStep s = settle s (firstFault (.add op1 op2) s) (effect (.add op1 op2) s) := by
  obtain ⟨room1, room2⟩ := operand_fetch_passes low
  simp +decide only [summaryStep, ir, first, second, room1, room2, true_and, false_and, if_true, if_false]
  exact table_alu_eq low fun h1 h2 => by rw [xval_eq h1, xval_eq h2]

end

theorem summaryStep_hlt (low : s.pc.toNat ≤ 0xFD) (ir : s.readMem s.pc = 0x01) :
    summaryStep s = settle s (firstFault .hlt s) (effect .hlt s) := by
  obtain ⟨room1, room2⟩ := operand_fetch_passes low
  simp +decide only [summaryStep, ir, room1, room2, true_and, false_and, if_true, if_false]
  rw [firstFault, settle_advanceFault_short low (by decide), addr_add]
  rfl

theorem summaryStep_ret (low : s.pc.toNat ≤ 0xFD) (ir : s.readMem s.pc = 0x11) :
    summaryStep s = settle s (firstFault .ret s) (effect .ret s) := by
  obtain ⟨room1, room2⟩ := operand_fetch_passes low
  simp +decide only [summaryStep, ir, room1, room2, true_and, false_and, if_false]
  rw [firstFault, settle_popFault]
  refine ite_congr rfl (fun _ => rfl) fun _ => ?_
  rw [setX_seven, addr_add, ofNat_toNat_byte]
  rfl

/-- The table below the top of memory: the row of the fetched instruction. -/
theorem summaryStep_of_fetch_ok {i : Instr} (fetched : fetch s = .ok i) :
    summaryStep s = settle s (firstFault i s) (effect i s) := by
  obtain ⟨build, low, table, rfl⟩ := fetch_ok_cases fetched
  rcases lookup_cases table with ⟨ir, rfl⟩ | ⟨ir, rfl⟩ | ⟨ir, rfl⟩ | ⟨ir, rfl⟩ | ⟨ir, rfl⟩ | ⟨ir, rfl⟩ | ⟨ir, rfl⟩ |
    ⟨ir, rfl⟩ | ⟨ir, rfl⟩
  · exact summaryStep_ldi low rfl rfl ir
  · exact summaryStep_prn low rfl ir
  · exact summaryStep_hlt low ir
  · exact summaryStep_mul low rfl rfl ir
  · exact summaryStep_add low rfl rfl ir
  · exact summaryStep_push low rfl ir
  · exact summaryStep_pop low rfl ir
  · exact summaryStep_call low rfl ir
  · exact summaryStep_ret low ir

/-- The table's first three checks are the fetch's (R149). -/
theorem summaryStep_of_fetch_error {c : FaultCause} (fetched : fetch s = .error c) : summaryStep s = s.raise c := by
  by_cases nine : s.readMem s.pc ∈ nineOpcodes
  · obtain ⟨build, table⟩ := Option.isSome_iff_exists.mp ((lookup_isSome_iff _).mpr nine)
    rcases fetch_error_cases fetched with ⟨none, -⟩ | ⟨top, rfl⟩
    · cases none.symm.trans table
    · rw [summaryStep, if_neg (not_not.mpr nine)]
      by_cases last : 0xFF < s.pc.toNat + 1
      · rw [if_pos last]
        rfl
      · rw [if_neg last, if_pos (by omega)]
        rfl
  · have unknown := fetch_unknown ((lookup_none_iff _).mpr nine)
    obtain rfl := Except.error.inj (unknown.symm.trans fetched)
    rw [summaryStep, if_pos nine]
    rfl

/-- Settles O41: the fetch decides the branch on both sides, and every row is its instruction. -/
theorem stepIsTheSummaryTable : Obligations.StepIsTheSummaryTable := by
  intro s run
  cases fetched : fetch s with
  | error c => rw [summaryStep_of_fetch_error fetched, step_of_fetch_error run fetched]
  | ok i => rw [summaryStep_of_fetch_ok fetched, step_of_fetch_ok run fetched, exec_eq]

end Sys2Proof.Machine
end

section
/-! The loader and the program file (R61, R172, R176, R177): the launch state of an image, what one line contributes,
and that the lines of a text are the lines it was joined from. -/

namespace Sys2Proof.Machine

open Sys2Proof.Claims

/-! ### The image -/

/-- An image that fits is placed in the reset state (R172, R176). -/
theorem launch_of_short {image : List Byte} (short : image.length ≤ 256) :
    ∃ s, launch image = some s ∧ (∀ a : Byte, s.readMem a = image.getD a.toNat 0) ∧ s.mem.wf = true ∧
      s.status = .running ∧ { s with mem := [] } = State.reset := by
  have launched : launch image = some { State.reset with mem := Memory.store [] 0 image } := if_pos short
  have canonical : (Memory.store [] 0 image).wf = true := by
    refine Memory.wf_store image [] 0 Memory.wf_nil ?_
    rw [Nat.zero_add]
    exact short
  exact ⟨_, launched, launch_readMem launched, canonical, rfl, rfl⟩

/-- A longer image is refused (R177). -/
theorem launch_of_long {image : List Byte} (long : 256 < image.length) : launch image = none :=
  if_neg (Nat.not_le.mpr long)

/-- Settles O47: the two branches of the load. -/
theorem launchPlacesImage : Obligations.LaunchPlacesImage :=
  fun _ => ⟨launch_of_short, launch_of_long⟩

/-! ### The body of a line -/

/-- A character that can stand in a literal: neither white space nor the start of a comment. -/
def plainChar (c : Char) : Prop := c.isWhitespace = false ∧ c ≠ '#'

theorem plainChar_of_binary {c : Char} (h : c = '0' ∨ c = '1') : plainChar c := by
  rcases h with rfl | rfl
  · exact ⟨rfl, by decide⟩
  · exact ⟨rfl, by decide⟩

theorem dropWhile_spaces (n : Nat) (l : List Char) :
    (spaces n ++ l).dropWhile Char.isWhitespace = l.dropWhile Char.isWhitespace :=
  List.dropWhile_append_of_pos fun c hc => by
    rw [List.eq_of_mem_replicate hc]
    rfl

theorem dropWhile_plain {l : List Char} (plain : ∀ c ∈ l, plainChar c) : l.dropWhile Char.isWhitespace = l := by
  rw [List.dropWhile_eq_self_iff]
  intro nonempty white
  exact absurd white (by simp [(plain _ (List.getElem_mem nonempty)).1])

/-- The comment is cut off before the spaces are (R61). -/
theorem takeWhile_commentTail {l : List Char} (comment : Option (List Char)) (h : ∀ c ∈ l, c ≠ '#') :
    (l ++ commentTail comment).takeWhile (fun c => decide (c ≠ '#')) = l := by
  rw [List.takeWhile_append_of_pos fun c hc => decide_eq_true (h c hc)]
  cases comment <;> simp [commentTail]

/-- Spaces around a literal and a comment behind it leave the literal (R61, log entry 9). -/
theorem lineBody_of_plain {literal : List Char} (before after : Nat) (comment : Option (List Char))
    (plain : ∀ c ∈ literal, plainChar c) :
    lineBody (spaces before ++ literal ++ spaces after ++ commentTail comment) = literal := by
  have noHash : ∀ c ∈ spaces before ++ literal ++ spaces after, c ≠ '#' := by
    intro c hc
    rcases List.mem_append.mp hc with hc | hc
    · rcases List.mem_append.mp hc with hc | hc
      · rw [List.eq_of_mem_replicate hc]
        decide
      · exact (plain c hc).2
    · rw [List.eq_of_mem_replicate hc]
      decide
  rw [lineBody, takeWhile_commentTail comment noHash, List.append_assoc, dropWhile_spaces]
  cases literal with
  | nil =>
    have blank := dropWhile_spaces after []
    rw [List.append_nil] at blank
    rw [List.nil_append, blank]
    rfl
  | cons c rest =>
    have black : ¬ c.isWhitespace = true := by simp [(plain c List.mem_cons_self).1]
    have plainReversed : ∀ d ∈ (c :: rest).reverse, plainChar d := fun d hd => plain d (List.mem_reverse.mp hd)
    rw [List.cons_append, List.dropWhile_cons_of_neg black, ← List.cons_append, List.reverse_append,
      show (spaces after).reverse = spaces after from List.reverse_replicate, dropWhile_spaces,
      dropWhile_plain plainReversed, List.reverse_reverse]

theorem mem_dropWhile_of_black {l : List Char} {c : Char} (hc : c ∈ l) (black : c.isWhitespace = false) :
    c ∈ l.dropWhile Char.isWhitespace := by
  rw [← List.takeWhile_append_dropWhile (p := Char.isWhitespace) (l := l), List.mem_append] at hc
  rcases hc with skipped | kept
  · cases (List.mem_takeWhile_imp skipped).symm.trans black
  · exact kept

/-- A character before the comment that is not white space stays in the body. -/
theorem mem_lineBody {start : List Char} (rest : List Char) {c : Char} (noHash : '#' ∉ start) (hash : c ≠ '#')
    (black : c.isWhitespace = false) : c ∈ lineBody (start ++ c :: rest) := by
  have kept : ∀ d ∈ start, decide (d ≠ '#') = true := fun d hd => decide_eq_true fun e => noHash (e ▸ hd)
  have before : c ∈ (start ++ c :: rest).takeWhile (fun d => decide (d ≠ '#')) := by
    rw [List.takeWhile_append_of_pos kept]
    refine List.mem_append_right _ ?_
    rw [List.takeWhile_cons_of_pos (by exact decide_eq_true hash)]
    exact List.mem_cons_self
  have trimmed := mem_dropWhile_of_black before black
  exact List.mem_reverse.mpr (mem_dropWhile_of_black (List.mem_reverse.mpr trimmed) black)

/-! ### What a line is -/

theorem parseLine_of_empty {line : List Char} (h : lineBody line = []) : parseLine line = .skipped := by
  simp only [parseLine, h, true_or, if_true]

theorem parseLine_of_other {line : List Char} {c : Char} (h : c ∈ lineBody line) (other : ¬ (c = '0' ∨ c = '1')) :
    parseLine line = .skipped := by
  refine if_pos (.inr fun all => other ?_)
  exact of_decide_eq_true (List.all_eq_true.mp all c h)

theorem parseLine_of_binary {line literal : List Char} (h : lineBody line = literal) (nonempty : literal ≠ [])
    (binary : ∀ c ∈ literal, c = '0' ∨ c = '1') :
    parseLine line =
      if literal.length = 8 then .byte (BitVec.ofNat 8 (binaryValue literal)) else .malformed := by
  subst h
  refine if_neg (not_or.mpr ⟨nonempty, not_not.mpr (List.all_eq_true.mpr fun c hc => ?_)⟩)
  exact decide_eq_true (binary c hc)

theorem digits_binary (b : Byte) : ∀ c ∈ digits b, c = '0' ∨ c = '1' := by
  intro c hc
  obtain ⟨k, -, rfl⟩ := List.mem_map.mp hc
  cases b.getLsbD k
  · exact .inl rfl
  · exact .inr rfl

/-- One digit as a number: the bit it stands for. -/
theorem digit_value (b : Byte) (k : Nat) :
    (if (if b.getLsbD k then '1' else '0') = '1' then 1 else 0) = b.toNat / 2 ^ k % 2 := by
  rw [BitVec.getLsbD, Nat.testBit_eq_decide_div_mod_eq]
  rcases Nat.mod_two_eq_zero_or_one (b.toNat / 2 ^ k) with h | h <;> rw [h] <;> rfl

/-- Reading the low `k` digits behind the number of the digits above them gives the byte. -/
theorem foldl_low_digits (b : Byte) (k : Nat) :
    ((List.range k).reverse.map fun j => if b.getLsbD j then '1' else '0').foldl
      (fun n c => 2 * n + if c = '1' then 1 else 0) (b.toNat / 2 ^ k) = b.toNat := by
  induction k with
  | zero => exact Nat.div_one _
  | succ k ih =>
    have shifted : 2 * (b.toNat / 2 ^ (k + 1)) + b.toNat / 2 ^ k % 2 = b.toNat / 2 ^ k := by
      rw [pow_succ, ← Nat.div_div_eq_div_mul]
      exact Nat.div_add_mod _ 2
    rw [List.range_succ, List.reverse_append, List.reverse_singleton, List.singleton_append, List.map_cons,
      List.foldl_cons, digit_value, shifted, ih]

/-- The eight digits are read base 2 as the byte (R61). -/
theorem binaryValue_digits (b : Byte) : binaryValue (digits b) = b.toNat := by
  have above : b.toNat / 2 ^ 8 = 0 := Nat.div_eq_of_lt b.isLt
  have low := foldl_low_digits b 8
  rwa [above] at low

/-- Settles O48: the body of the line is the literal, and its digits and their number decide. -/
theorem programFileLineIsItsByte : Obligations.ProgramFileLineIsItsByte := by
  refine fun before after comment =>
    ⟨fun b => ?_, ?_, fun literal nonempty binary length => ?_, fun start rest c noHash other black => ?_⟩
  · have body := lineBody_of_plain before after comment fun c hc => plainChar_of_binary (digits_binary b c hc)
    rw [parseLine_of_binary body (List.cons_ne_nil _ _) (digits_binary b), binaryValue_digits,
      if_pos (show (digits b).length = 8 from rfl), ofNat_toNat_byte]
  · have body := lineBody_of_plain (literal := []) before 0 comment fun c hc => nomatch hc
    rw [List.append_nil, show spaces 0 = [] from rfl, List.append_nil] at body
    exact parseLine_of_empty body
  · have body := lineBody_of_plain before after comment fun c hc => plainChar_of_binary (binary c hc)
    rw [parseLine_of_binary body nonempty binary, if_neg length]
  · simp only [List.mem_cons, List.not_mem_nil, or_false, not_or] at other
    obtain ⟨zero, one, hash⟩ := other
    exact parseLine_of_other (mem_lineBody rest noHash hash black) (not_or.mpr ⟨zero, one⟩)

/-! ### The lines of a text -/

theorem splitLines_of_noNewline {l : List Char} (h : '\n' ∉ l) : splitLines l = [l] := by
  induction l with
  | nil => rfl
  | cons c l ih =>
    obtain ⟨hc, hl⟩ := not_or.mp (mt List.mem_cons.mpr h)
    simp only [splitLines, if_neg (Ne.symm hc), ih hl]

theorem splitLines_append_newline {l : List Char} (h : '\n' ∉ l) (text : List Char) :
    splitLines (l ++ '\n' :: text) = l :: splitLines text := by
  induction l with
  | nil => simp only [List.nil_append, splitLines, if_true]
  | cons c l ih =>
    obtain ⟨hc, hl⟩ := not_or.mp (mt List.mem_cons.mpr h)
    simp only [List.cons_append, splitLines, if_neg (Ne.symm hc), ih hl]

theorem splitLines_intercalate {lines : List (List Char)} (nonempty : lines ≠ []) (h : ∀ l ∈ lines, '\n' ∉ l) :
    splitLines (['\n'].intercalate lines) = lines := by
  induction lines with
  | nil => exact absurd rfl nonempty
  | cons l lines ih =>
    obtain ⟨hl, hlines⟩ := List.forall_mem_cons.mp h
    cases lines with
    | nil => rw [List.intercalate_singleton, splitLines_of_noNewline hl]
    | cons l' lines =>
      rw [List.intercalate_cons_cons, List.append_assoc, List.singleton_append, splitLines_append_newline hl,
        ih (List.cons_ne_nil _ _) hlines]

/-- No lines at all give the empty text, whose one line is skipped. -/
theorem parseLines_splitLines_intercalate {lines : List (List Char)} (h : ∀ l ∈ lines, '\n' ∉ l) :
    parseLines (splitLines (['\n'].intercalate lines)) = parseLines lines := by
  cases lines with
  | nil => rfl
  | cons l lines => rw [splitLines_intercalate (List.cons_ne_nil _ _) h]

theorem parseLines_of_malformed {lines : List (List Char)} (h : ∃ l ∈ lines, parseLine l = .malformed) :
    parseLines lines = none := by
  induction lines with
  | nil => simp at h
  | cons l lines ih =>
    obtain ⟨bad, mem, malformed⟩ := h
    rcases List.mem_cons.mp mem with rfl | mem
    · simp only [parseLines, malformed]
    · rw [parseLines, ih ⟨bad, mem, malformed⟩]
      cases parseLine l <;> rfl

theorem parseLines_of_wellFormed {lines : List (List Char)} (h : ∀ l ∈ lines, parseLine l ≠ .malformed) :
    parseLines lines = some (lines.filterMap lineByte) := by
  induction lines with
  | nil => rfl
  | cons l lines ih =>
    obtain ⟨hl, hlines⟩ := List.forall_mem_cons.mp h
    cases parsed : parseLine l with
    | byte b => simp only [parseLines, parsed, ih hlines, List.filterMap_cons, lineByte]
    | skipped => simp only [parseLines, parsed, ih hlines, List.filterMap_cons, lineByte]
    | malformed => exact absurd parsed hl

/-- Settles O50: the text's lines are the given ones, a malformed one refuses the file, and the others' bytes are the
image. -/
theorem programFileFillsMemoryInOrder : Obligations.ProgramFileFillsMemoryInOrder := by
  intro lines noNewline
  have file : launchFile (['\n'].intercalate lines) = (parseLines lines).bind launch := by
    rw [launchFile, parseLines_splitLines_intercalate noNewline]
  rw [file]
  refine ⟨fun malformed => by rw [parseLines_of_malformed malformed, Option.bind_none], fun wellFormed => ?_⟩
  rw [parseLines_of_wellFormed wellFormed, Option.bind_some]
  exact ⟨launch_of_short, launch_of_long⟩

end Sys2Proof.Machine
end
